-- ==== Sys2Proof/Word.lean ====
section
/-! DEFINITION. The word of the core (spec 00_scope.md R8, R9): a signed integer in the range of W bits.
No field of this machine is binary and no value changes width (R9), so a word is an integer, and the
range is a predicate that the invariant `State.Wf` keeps (log entry 2). -/

namespace Sys2Proof

/-- A memory word, an input value or an output value (R8). -/
abbrev Word := Int

/-- The least word of W bits, −2^(W−1) (R8). -/
def wordMin (W : Nat) : Int := -((2 ^ (W - 1) : Nat) : Int)

/-- The greatest word of W bits, 2^(W−1) − 1 (R8). -/
def wordMax (W : Nat) : Int := ((2 ^ (W - 1) : Nat) : Int) - 1

/-- R8: v is a word of W bits. -/
abbrev IsWord (W : Nat) (v : Int) : Prop := wordMin W ≤ v ∧ v ≤ wordMax W

end Sys2Proof
end

