-- ==== Sys2Proof/Config.lean ====
section
/-! DEFINITION. The implementation parameters of spec 00_scope.md R7. The spec leaves W, NMAX and IQ_CAP
open and decides OVERFLOW and OQ_CAP. A machine carries its parameters as data (`State.cfg`), so a
statement over all states is a statement over all parameters (log entry 1). -/

namespace Sys2Proof

/-- The parameter OVERFLOW (R7, R140): what add and multiply do when the exact result is no word. -/
inductive Overflow
  | wrap    -- decided for this hardware (D2)
  | refuse  -- the conservative alternative
  deriving DecidableEq, Repr

/-- The parameters of R7, under the spec's names. -/
structure Config where
  /-- width in bits of a word -/
  W : Nat
  /-- largest program length the core can hold -/
  NMAX : Nat
  OVERFLOW : Overflow
  /-- most input values one RUN can supply -/
  IQ_CAP : Nat
  /-- most output values one run can append; `none` is unbounded, as decided (D23) -/
  OQ_CAP : Option Nat
  deriving DecidableEq, Repr

/-- R7: W ≥ 16 and NMAX ≤ 2^(W−1) − 1. -/
abbrev Config.Wf (c : Config) : Prop := 16 ≤ c.W ∧ (c.NMAX : Int) ≤ wordMax c.W

/-- The settings the spec decides for this hardware (R7, D2, D23). -/
abbrev Config.Decided (c : Config) : Prop := c.OVERFLOW = .wrap ∧ c.OQ_CAP = none

/-- The parameters of `State.reset`. OVERFLOW and OQ_CAP are the spec's decided values.
DESIGN CHOICE: W = 64 (the reference instance of D1), NMAX and IQ_CAP 2^63 − 1 (log entry 1). -/
def Config.reference : Config where
  W := 64
  NMAX := 2 ^ 63 - 1
  OVERFLOW := .wrap
  IQ_CAP := 2 ^ 63 - 1
  OQ_CAP := none

end Sys2Proof
end

