-- ==== Sys2Proof/Syntax.lean ====
section
/-! DEFINITION. The nine instructions of spec 30_encoding.md R70, one constructor per row of the opcode
table, and the abstract syntax of the assembly language of R76. An instruction holds the mode digits
of its parameters as the decoder reports them, raw (R67); its parameter words stay in memory, where
the decoder never inspects them (R71). -/

namespace Sys2Proof

/-- The instruction set (R2, R70). `m1`, `m2`, `m3` are the decimal mode digits of R63. -/
inductive Instr
  | add (m1 m2 m3 : Nat)
  | multiply (m1 m2 m3 : Nat)
  | readInput (m1 : Nat)
  | writeOutput (m1 : Nat)
  | jumpIfTrue (m1 m2 : Nat)
  | jumpIfFalse (m1 m2 : Nat)
  | lessThan (m1 m2 m3 : Nat)
  | equals (m1 m2 m3 : Nat)
  | halt
  deriving DecidableEq, Repr

/-- The mode digits of the parameters the instruction uses, in slot order. -/
def Instr.modeDigits : Instr → List Nat
  | .add m1 m2 m3 | .multiply m1 m2 m3 | .lessThan m1 m2 m3 | .equals m1 m2 m3 => [m1, m2, m3]
  | .jumpIfTrue m1 m2 | .jumpIfFalse m1 m2 => [m1, m2]
  | .readInput m1 | .writeOutput m1 => [m1]
  | .halt => []

/-- The two parameter modes (R3, R65). -/
inductive Mode
  | position   -- digit 0: the slot holds an address
  | immediate  -- digit 1: the slot holds the literal value
  deriving DecidableEq, Repr

/-- The role of a parameter (R70). -/
inductive Role
  | read
  | write
  deriving DecidableEq, Repr

/-- A parameter of an assembly line (R76): `[n]` is position mode, `#n` is immediate mode. -/
structure AsmParam where
  mode : Mode
  n : Word
  deriving DecidableEq, Repr

/-- What an assembly line holds (R76): one of the nine mnemonics with its parameters, or literal words. -/
inductive AsmBody
  | add (a b dest : AsmParam)
  | mul (a b dest : AsmParam)
  | inp (dest : AsmParam)     -- the mnemonic is `in`
  | out (src : AsmParam)
  | jt (cond target : AsmParam)
  | jf (cond target : AsmParam)
  | lt (a b dest : AsmParam)
  | eq (a b dest : AsmParam)
  | halt
  | words (vs : List Word)    -- the directive `.word`
  deriving DecidableEq, Repr

/-- One assembly line (R76), with its optional `addr:` prefix. -/
structure AsmLine where
  addr : Option Nat
  body : AsmBody
  deriving DecidableEq, Repr

end Sys2Proof
end

