-- ==== Sys2Proof/WellFormed.lean ====
section
/-! DEFINITION. Which terms of `Instr` stand for an instruction word: each mode digit is one decimal digit
(spec 30_encoding.md R61, R63). A well-formed instruction may still carry a digit 2 to 9, which the
decoder reports and ALU control turns into InvalidMode (R67). -/

namespace Sys2Proof

/-- Every mode digit lies in 0..9 (R63). -/
def Instr.wellFormed (i : Instr) : Bool := i.modeDigits.all fun d => decide (d ≤ 9)

end Sys2Proof
end

