-- ==== Sys2Proof/Decode.lean ====
section
/-! DEFINITION. The instruction decoder (spec 30_encoding.md R60 to R72), the encoder of R75, the assembler
of R76, and the host's view of a table word. -/

namespace Sys2Proof

/-- Decimal digit k of a non-negative integer, k = 0 for the units (00_scope.md R9). -/
def digit (v k : Nat) : Nat := v / 10 ^ k % 10

/-- The decoder's tag, one of ten values (R69, R101). -/
inductive Tag
  | ADD | MUL | IN | OUT | JT | JF | LT | EQ | HALT | INVALID
  deriving DecidableEq, Repr

/-- What the decoder hands to ALU control (R69, R101). -/
structure Fields where
  tag : Tag
  m1 : Nat
  m2 : Nat
  m3 : Nat
  deriving DecidableEq, Repr

/-- The opcode map of R69: 0 and 9 to 98 are illegal. -/
def tagOf : Nat → Tag
  | 1 => .ADD
  | 2 => .MUL
  | 3 => .IN
  | 4 => .OUT
  | 5 => .JT
  | 6 => .JF
  | 7 => .LT
  | 8 => .EQ
  | 99 => .HALT
  | _ => .INVALID

/-- The opcode of a non-negative word (R62). -/
def opcodeOf (w : Nat) : Nat := w % 100

/-- The function Decode of R69: total, and a negative word is INVALID (R66). -/
def decodeFields (w : Int) : Fields :=
  if w < 0 then ⟨.INVALID, 0, 0, 0⟩
  else ⟨tagOf (opcodeOf w.toNat), digit w.toNat 2, digit w.toNat 3, digit w.toNat 4⟩

/-- Why a word is no instruction (R69). -/
inductive Reject
  /-- the word is negative (R66) -/
  | negativeWord
  /-- `w mod 100` is 0 or 9 to 98 (R69) -/
  | unknownOpcode (op : Nat)
  deriving DecidableEq, Repr

/-- The instruction that a tag and its mode digits select. Digits of parameter positions the instruction
does not use are dropped (R68). -/
def Fields.instr? : Fields → Option Instr
  | ⟨.ADD, m1, m2, m3⟩ => some (.add m1 m2 m3)
  | ⟨.MUL, m1, m2, m3⟩ => some (.multiply m1 m2 m3)
  | ⟨.IN, m1, _, _⟩ => some (.readInput m1)
  | ⟨.OUT, m1, _, _⟩ => some (.writeOutput m1)
  | ⟨.JT, m1, m2, _⟩ => some (.jumpIfTrue m1 m2)
  | ⟨.JF, m1, m2, _⟩ => some (.jumpIfFalse m1 m2)
  | ⟨.LT, m1, m2, m3⟩ => some (.lessThan m1 m2 m3)
  | ⟨.EQ, m1, m2, m3⟩ => some (.equals m1 m2 m3)
  | ⟨.HALT, _, _, _⟩ => some .halt
  | ⟨.INVALID, _, _, _⟩ => none

/-- The instruction a word stands for, or the reason it stands for none. -/
def decode (w : Int) : Except Reject Instr :=
  match (decodeFields w).instr? with
  | some i => .ok i
  | none => .error (if w < 0 then .negativeWord else .unknownOpcode (opcodeOf w.toNat))

/-! ### The table of R70 -/

/-- The opcode (column OP of R70). -/
def Instr.opcode : Instr → Nat
  | .add _ _ _ => 1
  | .multiply _ _ _ => 2
  | .readInput _ => 3
  | .writeOutput _ => 4
  | .jumpIfTrue _ _ => 5
  | .jumpIfFalse _ _ => 6
  | .lessThan _ _ _ => 7
  | .equals _ _ _ => 8
  | .halt => 99

/-- The roles of parameters 1 to p (R70). -/
def Instr.roles : Instr → List Role
  | .add _ _ _ | .multiply _ _ _ | .lessThan _ _ _ | .equals _ _ _ => [.read, .read, .write]
  | .jumpIfTrue _ _ | .jumpIfFalse _ _ => [.read, .read]
  | .readInput _ => [.write]
  | .writeOutput _ => [.read]
  | .halt => []

/-- The parameter count p (R70). -/
def Instr.paramCount (i : Instr) : Nat := i.roles.length

/-- The length in words, 1 + p (R12, R70). -/
def Instr.length (i : Instr) : Nat := 1 + i.paramCount

/-! ### The encoder of R75 and the assembler of R76 -/

/-- The instruction word of R75, an unused digit being 0. -/
def encodeWord (op m1 m2 m3 : Nat) : Int := ((op + 100 * m1 + 1000 * m2 + 10000 * m3 : Nat) : Int)

/-- The instruction word of an instruction (R75). -/
def encode : Instr → Int
  | .add m1 m2 m3 => encodeWord 1 m1 m2 m3
  | .multiply m1 m2 m3 => encodeWord 2 m1 m2 m3
  | .readInput m1 => encodeWord 3 m1 0 0
  | .writeOutput m1 => encodeWord 4 m1 0 0
  | .jumpIfTrue m1 m2 => encodeWord 5 m1 m2 0
  | .jumpIfFalse m1 m2 => encodeWord 6 m1 m2 0
  | .lessThan m1 m2 m3 => encodeWord 7 m1 m2 m3
  | .equals m1 m2 m3 => encodeWord 8 m1 m2 m3
  | .halt => encodeWord 99 0 0 0

/-- The mode digit of a mode (R65). -/
def Mode.digit : Mode → Nat
  | .position => 0
  | .immediate => 1

/-- The digit that a parameter's mode puts into the instruction word (R65, R76). -/
def AsmParam.digit (p : AsmParam) : Nat := p.mode.digit

/-- The words one assembly line emits: the canonical instruction word, then the slot words (R76). -/
def AsmBody.assemble : AsmBody → List Int
  | .add a b d => [encode (.add a.digit b.digit d.digit), a.n, b.n, d.n]
  | .mul a b d => [encode (.multiply a.digit b.digit d.digit), a.n, b.n, d.n]
  | .inp d => [encode (.readInput d.digit), d.n]
  | .out v => [encode (.writeOutput v.digit), v.n]
  | .jt c t => [encode (.jumpIfTrue c.digit t.digit), c.n, t.n]
  | .jf c t => [encode (.jumpIfFalse c.digit t.digit), c.n, t.n]
  | .lt a b d => [encode (.lessThan a.digit b.digit d.digit), a.n, b.n, d.n]
  | .eq a b d => [encode (.equals a.digit b.digit d.digit), a.n, b.n, d.n]
  | .halt => [encode .halt]
  | .words vs => vs

/-- Assemble lines from an address on. An `addr:` prefix is a check: a wrong one fails (R76). -/
def assembleFrom : Nat → List AsmLine → Option (List Int)
  | _, [] => some []
  | at_, l :: ls =>
    let ws := l.body.assemble
    if l.addr.all (· == at_) then (assembleFrom (at_ + ws.length) ls).map (ws ++ ·) else none

/-- The program an assembly text stands for (R76). -/
def assemble (ls : List AsmLine) : Option (List Int) := assembleFrom 0 ls

/-! ### A table word as the host numbers its bits (log entry 13) -/

/-- A W-bit pattern read as a two's-complement word (00_scope.md R8). -/
def wordOfBits (W bits : Nat) : Int := Int.bmod bits (2 ^ W)

/-- Int k of an instruction whose bits are w, bit 0 the least significant bit of the first word. -/
def tableWord (W w k : Nat) : Int := wordOfBits W (w / 2 ^ (W * k) % 2 ^ W)

/-- The instruction the decoder reads from an instruction whose bits are `w`: the decoder looks at the
first word only (R71), a word of the reference instance's W bits. `w` has no bit above `nbits`, so
`nbits` is not needed. -/
def decodeTableWord (_nbits w : Nat) : Option Instr :=
  (decode (tableWord Config.reference.W w 0)).toOption

end Sys2Proof
end

