-- ==== Sys2Proof/Machine/State.lean ====
section
/-! DEFINITION. The state of the core (spec 10_state.md R20 to R26), its reset values, and why a step can
stop. -/

namespace Sys2Proof.Machine

/-- The status ST (R25). -/
inductive Status
  | ready
  | running
  | halted
  | faulted
  deriving DecidableEq, Repr

/-- The fault kind FR.kind (R26, R200). -/
inductive FaultKind
  | none
  | invalidOpcode
  | addressOutOfBounds
  | invalidMode
  deriving DecidableEq, Repr

/-- The fault record FR (R26). A field with a valid bit is an `Option`. -/
structure FaultRecord where
  kind : FaultKind
  /-- the value of ip at the faulting step -/
  ip : Nat
  /-- the instruction word at `ip`; not valid when the fetch itself faulted -/
  word : Option Word
  /-- the offending address or next-pointer value, for AddressOutOfBounds -/
  addr : Option Int
  deriving DecidableEq, Repr

/-- The record with kind 0 and both valid bits clear (R26, R230, R231, R233).
DESIGN CHOICE: its ip field is 0 (log entry 9). -/
def FaultRecord.clear : FaultRecord := ⟨.none, 0, none, none⟩

/-- One listed cell of memory: its address and the word it holds. -/
abbrev Cell := Nat × Word

/-- The memory M and its length N (R20, R21). `cells` lists, by rising address, every cell that does not
hold 0; a cell of [0, N) that is not listed holds 0 (`unlistedWord`, log entry 3). -/
structure Memory where
  /-- N -/
  size : Nat
  cells : List Cell
  deriving DecidableEq, Repr

/-- The memory of no cells. -/
def Memory.empty : Memory := ⟨0, []⟩

/-- The whole state of one core instance (R20 to R26, R30, R31), and the parameters it was built with
(00_scope.md R7, log entry 1). -/
structure State where
  /-- the parameters of R7; no step and no transaction writes them -/
  cfg : Config
  /-- M and N (R20, R21) -/
  mem : Memory
  /-- the instruction pointer (R22) -/
  ip : Nat
  /-- the input queue IQ, head first (R23) -/
  iq : List Word
  /-- the output log OQ, oldest first (R24) -/
  oq : List Word
  /-- the status ST (R25) -/
  st : Status
  /-- the fault record FR (R26) -/
  fr : FaultRecord
  deriving DecidableEq, Repr

/-- The state at power-on of a core with parameters c (R20 to R26, 70_reset_and_hazards.md R230). -/
def State.powerOn (c : Config) : State where
  cfg := c
  mem := .empty
  ip := 0
  iq := []
  oq := []
  st := .ready
  fr := .clear

/-- The machine right after power-on, for the reference parameters. -/
def State.reset : State := State.powerOn Config.reference

/-! ### The field updates every operation is built from -/

def State.setMem (s : State) (m : Memory) : State := { s with mem := m }
def State.setIp (s : State) (p : Nat) : State := { s with ip := p }
def State.setIq (s : State) (q : List Word) : State := { s with iq := q }
def State.setOq (s : State) (q : List Word) : State := { s with oq := q }
def State.setSt (s : State) (x : Status) : State := { s with st := x }
def State.setFr (s : State) (f : FaultRecord) : State := { s with fr := f }

/-- A fault raised inside a step, with what it carries (R11, R206). It does not stop the model: `takeFault`
turns it into the next state. -/
inductive Raise
  | invalidOpcode
  | addressOutOfBounds (addr : Int)
  | invalidMode
  deriving DecidableEq, Repr

/-- Why a step has no next state although the machine is Running. The core's own faults (R200) are next
states and are not among these. -/
inductive Fault
  /-- Raised by write-output when OQ_CAP is finite and the log holds OQ_CAP values: "the step has no
  transition at all: the core is stuck" (R113). Safe: a stuck run reaches no outcome (log entry 6). -/
  | outputLogFull
  deriving DecidableEq, Repr

/-- Why an instruction has no meaning. -/
inductive Refusal
  /-- An instruction of the opcode table that has no meaning yet; raised by `exec` only. Safe. -/
  | notModelled (mnemonic : String)
  /-- Raised by add and multiply when OVERFLOW is refuse and the exact result is no word: "an instruction
  whose exact result lies outside the word range has no meaning, and the model refuses the run" (R140).
  Never raised when OVERFLOW is wrap, the decided value. Safe (log entry 4). -/
  | resultOutOfRange
  deriving DecidableEq, Repr

end Sys2Proof.Machine
end

