-- ==== Sys2Proof/Machine/Ops.lean ====
section
/-! DEFINITION. The named operations over memory, the queues and ip, and taking a fault (spec 20_memory.md
R41, R42; 40_engine.md R109 to R113; 60_exceptions.md R206). -/

namespace Sys2Proof.Machine

/-! ### Memory -/

/-- What a cell of [0, N) that is not listed holds (log entry 3). -/
def unlistedWord : Word := 0

/-- The word the listed cells give at an address. -/
def cellsRead : List Cell → Nat → Word
  | [], _ => unlistedWord
  | (b, v) :: cs, a => if a = b then v else cellsRead cs a

/-- Put a cell in front of the rest, unless it holds what an unlisted cell holds. -/
def cellsCons (a : Nat) (v : Word) (cs : List Cell) : List Cell :=
  if v = unlistedWord then cs else (a, v) :: cs

/-- Store a word, keeping the canonical form. -/
def cellsWrite : List Cell → Nat → Word → List Cell
  | [], a, v => cellsCons a v []
  | (b, u) :: cs, a, v =>
    if a < b then cellsCons a v ((b, u) :: cs)
    else if a = b then cellsCons a v cs
    else (b, u) :: cellsWrite cs a v

/-- The canonical form: addresses strictly rising and below N, no cell equal to an unlisted one. -/
abbrev Memory.wf (m : Memory) : Prop :=
  m.cells.Pairwise (fun c d => c.1 < d.1) ∧
    (∀ c ∈ m.cells, c.2 ≠ unlistedWord) ∧ ∀ c ∈ m.cells, c.1 < m.size

/-- 0 ≤ a < N, the address read as a signed integer (R40, R41). -/
abbrev Memory.InBounds (m : Memory) (a : Int) : Prop := 0 ≤ a ∧ a < m.size

/-- The memory port's `rd(a)` (40_engine.md R101): the word, or `none` for `oob`. -/
def Memory.read (m : Memory) (a : Int) : Option Word :=
  if m.InBounds a then some (cellsRead m.cells a.toNat) else none

/-- The memory port's `wr(a, v)` (R101): the new memory, or `none` for `oob`. The length stays (R43). -/
def Memory.write (m : Memory) (a : Int) (v : Word) : Option Memory :=
  if m.InBounds a then some ⟨m.size, cellsWrite m.cells a.toNat v⟩ else none

/-- The listed cells of a sequence of words whose first word has address a. -/
def cellsOfWords : Nat → List Word → List Cell
  | _, [] => []
  | a, v :: vs => cellsCons a v (cellsOfWords (a + 1) vs)

/-- The memory that holds a copy of a program (70_reset_and_hazards.md R231). -/
def Memory.ofWords (p : List Word) : Memory := ⟨p.length, cellsOfWords 0 p⟩

/-- `M[0] .. M[N−1]` in address order (40_engine.md R117). -/
def Memory.toWords (m : Memory) : List Word := (List.range m.size).map (cellsRead m.cells)

/-- Words stored at consecutive addresses from a on, the memory made long enough to hold them. Used by
`withFetchWord` only (log entry 13); no instruction and no transaction calls it. -/
def Memory.place : Memory → Nat → List Word → Memory
  | m, _, [] => m
  | m, a, v :: vs => Memory.place ⟨max m.size (a + 1), cellsWrite m.cells a v⟩ (a + 1) vs

/-! ### Checked accesses -/

/-- `MemRead(a, 1)` (R41). -/
def memRead (s : State) (a : Int) : Except Raise Word :=
  match s.mem.read a with
  | some v => .ok v
  | none => .error (.addressOutOfBounds a)

/-- `MemWrite(a, 1, v)` (R42). -/
def memWrite (s : State) (a : Int) (v : Word) : Except Raise State :=
  match s.mem.write a v with
  | some m => .ok (s.setMem m)
  | none => .error (.addressOutOfBounds a)

/-- The bounds check of a destination address (30_encoding.md R74). -/
def checkAddress (s : State) (a : Int) : Except Raise Int :=
  if s.mem.InBounds a then .ok a else .error (.addressOutOfBounds a)

/-! ### Taking a fault

There is no return beside it: R208 gives the core none. Faulted is left only by the host's LOAD and RUN
(Machine/HostPort.lean). -/

/-- The code FR.kind of what is raised (R200). -/
def Raise.kind : Raise → FaultKind
  | .invalidOpcode => .invalidOpcode
  | .addressOutOfBounds _ => .addressOutOfBounds
  | .invalidMode => .invalidMode

/-- FR.addr, valid only for AddressOutOfBounds (R206). -/
def Raise.addr : Raise → Option Int
  | .invalidOpcode => none
  | .addressOutOfBounds a => some a
  | .invalidMode => none

/-- `raise K(info)` (R206): FR records the fault, ST becomes Faulted, and ip, M, IQ and OQ stay. FR.word is
the fetched word, M[ip], valid only if that fetch succeeded (DEDUCED, log entry 10). -/
def takeFault (r : Raise) (s : State) : State :=
  (s.setFr ⟨r.kind, s.ip, s.mem.read s.ip, r.addr⟩).setSt .faulted

/-! ### Fetch -/

/-- The fetch and the decoder's verdict, the first lines of the step (40_engine.md R104). -/
def fetchDecode (s : State) : Except Raise Instr :=
  match memRead s s.ip with
  | .error r => .error r
  | .ok w =>
    match decode w with
    | .ok i => .ok i
    | .error _ => .error .invalidOpcode

/-! ### The I/O queue interface -/

/-- `InPop()` (R112): the head, removed; 0 from an empty queue, which stays empty. -/
def inPop (s : State) : Word × State :=
  match s.iq with
  | [] => (0, s)
  | v :: vs => (v, s.setIq vs)

/-- The output log can take one more value (R113). -/
abbrev HasOutputRoom (s : State) : Prop := ∀ c ∈ s.cfg.OQ_CAP, s.oq.length < c

/-- `OutPush(v)` (R113): append at the end; no transition when a finite log is full. -/
def outPush (v : Word) (s : State) : Option State :=
  if HasOutputRoom s then some (s.setOq (s.oq ++ [v])) else none

/-! ### The instruction-pointer sequencer -/

/-- The next-pointer check (R110): a value in [0, N] is written to ip, any other raises. -/
def setNext (next : Int) (s : State) : Host.Outcome State Fault Refusal :=
  if 0 ≤ next ∧ next ≤ s.mem.size then .next (s.setIp next.toNat)
  else .next (takeFault (.addressOutOfBounds next) s)

/-- The end of a storing instruction: the one write of the step, then `ip + length` (R104, R107, R109). -/
def storeAndAdvance (d : Int) (v : Word) (length : Nat) (s : State) : Host.Outcome State Fault Refusal :=
  match memWrite s d v with
  | .error r => .next (takeFault r s)
  | .ok t => setNext ((s.ip : Int) + length) t

end Sys2Proof.Machine
end

