-- ==== Sys2Proof/Machine/Flags.lean ====
section
/-! DEFINITION. The core has no flags (spec 10_state.md R28). This file holds what stands in their place: the
word a comparison stores, the zero tests of the jumps, and the mapping of an exact result to a word
(41_arithmetic.md R140). -/

namespace Sys2Proof.Machine

/-- `wrap_W(v)` (00_scope.md R10): the word congruent to v modulo 2^W. -/
def wrapWord (W : Nat) (v : Int) : Int := Int.bmod v (2 ^ W)

/-- The word of an exact sum or product (R140): wrapped, or, when OVERFLOW is refuse, only if it fits. -/
def resultWord (c : Config) (exact : Int) : Option Int :=
  match c.OVERFLOW with
  | .wrap => some (wrapWord c.W exact)
  | .refuse => if IsWord c.W exact then some exact else none

/-- 1 for true and 0 for false (R170). -/
def truthWord (b : Bool) : Int := if b then 1 else 0

/-- The signed comparison `a < b`, never a subtraction (44_compare.md R171). -/
def lessWord (a b : Int) : Int := truthWord (decide (a < b))

/-- The comparison `a = b` (R172). -/
def equalWord (a b : Int) : Int := truthWord (decide (a = b))

/-- The condition of jump-if-true: any non-zero word (43_branch.md R160). -/
def isNonzero (c : Int) : Bool := decide (c ≠ 0)

/-- The condition of jump-if-false: only zero (R161). -/
def isZero (c : Int) : Bool := decide (c = 0)

end Sys2Proof.Machine
end

