-- ==== Sys2Proof/Machine/Operands.lean ====
section
/-! DEFINITION. Mode legality and the address-mode resolver (spec 30_encoding.md R65, R67, R73, R74), and the
resolution of all parameters of an instruction in the order of 40_engine.md R104: every mode digit first,
then the slots 1 to p. -/

namespace Sys2Proof.Machine

/-- The mode a digit selects; 2 to 9 raise InvalidMode (R65, R67). -/
def modeOf : Nat → Except Raise Mode
  | 0 => .ok .position
  | 1 => .ok .immediate
  | _ => .error .invalidMode

/-- The address of slot k, an exact integer (00_scope.md R12). -/
def slot (s : State) (k : Nat) : Int := (s.ip : Int) + k

/-- `ReadParam(k, m)` (R73). -/
def readParam (s : State) (k : Nat) : Mode → Except Raise Int
  | .position =>
    match memRead s (slot s k) with
    | .error r => .error r
    | .ok a => memRead s a
  | .immediate => memRead s (slot s k)

/-- `WriteAddr(k, m)` (R74): the destination address, already checked against [0, N). -/
def writeAddr (s : State) (k : Nat) : Mode → Except Raise Int
  | .position =>
    match memRead s (slot s k) with
    | .error r => .error r
    | .ok a => checkAddress s a
  | .immediate => checkAddress s (slot s k)

/-- Parameters a: R, b: R, dest: W (add, multiply, less-than, equals). -/
def resolveReadReadWrite (m1 m2 m3 : Nat) (s : State) : Except Raise (Int × Int × Int) := do
  let k1 ← modeOf m1
  let k2 ← modeOf m2
  let k3 ← modeOf m3
  let a ← readParam s 1 k1
  let b ← readParam s 2 k2
  let d ← writeAddr s 3 k3
  return (a, b, d)

/-- Parameters cond: R, target: R (the jumps). Both are resolved, taken or not. -/
def resolveReadRead (m1 m2 : Nat) (s : State) : Except Raise (Int × Int) := do
  let k1 ← modeOf m1
  let k2 ← modeOf m2
  let c ← readParam s 1 k1
  let t ← readParam s 2 k2
  return (c, t)

/-- Parameter src: R (write-output). -/
def resolveRead (m1 : Nat) (s : State) : Except Raise Int := do
  let k1 ← modeOf m1
  readParam s 1 k1

/-- Parameter dest: W (read-input). -/
def resolveWrite (m1 : Nat) (s : State) : Except Raise Int := do
  let k1 ← modeOf m1
  writeAddr s 1 k1

end Sys2Proof.Machine
end

