-- ==== Sys2Proof/Machine/Arithmetic.lean ====
section
/-! DEFINITION. add and multiply (spec 41_arithmetic.md R140 to R142). -/

namespace Sys2Proof.Machine

/-- Store the word of an exact result and go on at ip + 4, or refuse the result (R140). -/
def storeResult (exact : Int) (d : Int) (s : State) : Host.Outcome State Fault Refusal :=
  match resultWord s.cfg exact with
  | some v => storeAndAdvance d v 4 s
  | none => .refused .resultOutOfRange

/-- `dest := a + b` (R141). -/
def execAdd (m1 m2 m3 : Nat) (s : State) : Host.Outcome State Fault Refusal :=
  match resolveReadReadWrite m1 m2 m3 s with
  | .error r => .next (takeFault r s)
  | .ok (a, b, d) => storeResult (a + b) d s

/-- `dest := a * b` (R142). -/
def execMultiply (m1 m2 m3 : Nat) (s : State) : Host.Outcome State Fault Refusal :=
  match resolveReadReadWrite m1 m2 m3 s with
  | .error r => .next (takeFault r s)
  | .ok (a, b, d) => storeResult (a * b) d s

end Sys2Proof.Machine
end

