-- ==== Sys2Proof/Machine/Branch.lean ====
section
/-! DEFINITION. jump-if-true and jump-if-false (spec 43_branch.md R160, R161). -/

namespace Sys2Proof.Machine

/-- The next-pointer value of a jump: its target when taken, else ip + 3 (R109). -/
def jumpNext (taken : Bool) (target : Int) (s : State) : Int :=
  if taken then target else (s.ip : Int) + 3

/-- `if cond != 0, next pointer := target; else ip + 3` (R160). -/
def execJumpIfTrue (m1 m2 : Nat) (s : State) : Host.Outcome State Fault Refusal :=
  match resolveReadRead m1 m2 s with
  | .error r => .next (takeFault r s)
  | .ok (c, t) => setNext (jumpNext (isNonzero c) t s) s

/-- `if cond == 0, next pointer := target; else ip + 3` (R161). -/
def execJumpIfFalse (m1 m2 : Nat) (s : State) : Host.Outcome State Fault Refusal :=
  match resolveReadRead m1 m2 s with
  | .error r => .next (takeFault r s)
  | .ok (c, t) => setNext (jumpNext (isZero c) t s) s

end Sys2Proof.Machine
end

