-- ==== Sys2Proof/Machine/Compare.lean ====
section
/-! DEFINITION. less-than and equals (spec 44_compare.md R170 to R172). -/

namespace Sys2Proof.Machine

/-- `dest := 1 if a < b else 0` (R171). -/
def execLessThan (m1 m2 m3 : Nat) (s : State) : Host.Outcome State Fault Refusal :=
  match resolveReadReadWrite m1 m2 m3 s with
  | .error r => .next (takeFault r s)
  | .ok (a, b, d) => storeAndAdvance d (lessWord a b) 4 s

/-- `dest := 1 if a == b else 0` (R172). -/
def execEquals (m1 m2 m3 : Nat) (s : State) : Host.Outcome State Fault Refusal :=
  match resolveReadReadWrite m1 m2 m3 s with
  | .error r => .next (takeFault r s)
  | .ok (a, b, d) => storeAndAdvance d (equalWord a b) 4 s

end Sys2Proof.Machine
end

