-- ==== Sys2Proof/Machine/Halt.lean ====
section
/-! DEFINITION. halt (spec 45_halt.md R180). -/

namespace Sys2Proof.Machine

/-- ST becomes Halted; ip keeps the address of the halt word and no next pointer is computed (R180). -/
def execHalt (s : State) : Host.Outcome State Fault Refusal := .next (s.setSt .halted)

end Sys2Proof.Machine
end

