-- ==== Sys2Proof/Machine/InputOutput.lean ====
section
/-! DEFINITION. read-input and write-output (spec 42_io.md R150, R151). -/

namespace Sys2Proof.Machine

/-- `dest := next input, or 0 from an empty queue` (R150). The destination is resolved before the pop. -/
def execReadInput (m1 : Nat) (s : State) : Host.Outcome State Fault Refusal :=
  match resolveWrite m1 s with
  | .error r => .next (takeFault r s)
  | .ok d => storeAndAdvance d (inPop s).1 2 (inPop s).2

/-- Append src to the output log (R151); stuck when a finite log is full (R113). -/
def execWriteOutput (m1 : Nat) (s : State) : Host.Outcome State Fault Refusal :=
  match resolveRead m1 s with
  | .error r => .next (takeFault r s)
  | .ok v =>
    match outPush v s with
    | some t => setNext ((s.ip : Int) + 2) t
    | none => .fault .outputLogFull

end Sys2Proof.Machine
end

