-- ==== Sys2Proof/Machine/Dispatch.lean ====
section
/-! DEFINITION. Opcode dispatch (spec 40_engine.md R104, R105): one arm per instruction. -/

namespace Sys2Proof.Machine

def exec (i : Instr) (s : State) : Host.Outcome State Fault Refusal :=
  match i with
  | .add m1 m2 m3 => Sys2Proof.Machine.execAdd m1 m2 m3 s
  | .multiply m1 m2 m3 => Sys2Proof.Machine.execMultiply m1 m2 m3 s
  | .readInput m1 => Sys2Proof.Machine.execReadInput m1 s
  | .writeOutput m1 => Sys2Proof.Machine.execWriteOutput m1 s
  | .jumpIfTrue m1 m2 => Sys2Proof.Machine.execJumpIfTrue m1 m2 s
  | .jumpIfFalse m1 m2 => Sys2Proof.Machine.execJumpIfFalse m1 m2 s
  | .lessThan m1 m2 m3 => Sys2Proof.Machine.execLessThan m1 m2 m3 s
  | .equals m1 m2 m3 => Sys2Proof.Machine.execEquals m1 m2 m3 s
  | .halt => Sys2Proof.Machine.execHalt s

end Sys2Proof.Machine
end

