-- ==== Sys2Proof/Machine/Step.lean ====
section
/-! DEFINITION. One step of the core (spec 40_engine.md R103, R104), and the placing of a table word where
the next step fetches. -/

namespace Sys2Proof.Machine

/-- One step. While ST = Running: fetch, decode, dispatch (R104). In any other status the core takes no
step and waits for the host, and the state stays as it is (R102, R216).
DESIGN CHOICE: that waiting is a next state equal to the present one (log entry 7). -/
def step (s : State) : Host.Outcome State Fault Refusal :=
  match s.st with
  | .running =>
    match fetchDecode s with
    | .ok i => exec i s
    | .error r => .next (takeFault r s)
  | .ready => .next s
  | .halted => .next s
  | .faulted => .next s

/-- s Running, with the four words of an instruction whose bits are `w` stored from ip on, and N raised to
hold them where it is smaller. It stands for a program loaded by the host (log entry 13). -/
def State.withFetchWord (s : State) (_nbits w : Nat) : State :=
  (s.setMem (s.mem.place s.ip ((List.range 4).map (tableWord s.cfg.W w)))).setSt .running

end Sys2Proof.Machine
end

