-- ==== Sys2Proof/Machine/Arbiter.lean ====
section
/-! DEFINITION. The memory arbiter's port (spec 40_engine.md R101, R106, R107): which transactions a step
issues, in order. A step is indivisible (R103), so the trace is a view of the step, not a part of State;
`Laws` and the statements tie it to what `step` does (log entry 14). -/

namespace Sys2Proof.Machine

/-- One transaction of the arbiter (R106). A refused one (`oob`) is listed too: it is the last of its step. -/
inductive PortOp
  | rd (a : Int)
  /-- the bounds check of a destination, which moves no word -/
  | check (a : Int)
  | wr (a : Int) (v : Int)
  deriving DecidableEq, Repr

/-- The address a transaction names. -/
def PortOp.addr : PortOp → Int
  | .rd a => a
  | .check a => a
  | .wr a _ => a

/-- The transactions of a read parameter: the slot read, and in position mode the dereference. -/
def readOps (s : State) (k : Nat) : Mode → List PortOp
  | .position =>
    .rd (slot s k) :: match s.mem.read (slot s k) with
      | some a => [.rd a]
      | none => []
  | .immediate => [.rd (slot s k)]

/-- The transactions of a write parameter: in position mode the slot read and the check of the address
read, in immediate mode only the check of the slot's own address. -/
def writeOps (s : State) (k : Nat) : Mode → List PortOp
  | .position =>
    .rd (slot s k) :: match s.mem.read (slot s k) with
      | some a => [.check a]
      | none => []
  | .immediate => [.check (slot s k)]

/-- Transactions, and what follows them if their result is no fault: "no later access of that step is
issued" after a failed one (R106). -/
def andThen {α : Type} (ops : List PortOp) (result : Except Raise α) (rest : α → List PortOp) : List PortOp :=
  ops ++ match result with
    | .ok x => rest x
    | .error _ => []

/-- The write of a step, if it has one. -/
def writeOp (d : Int) : Option Int → List PortOp
  | some v => [.wr d v]
  | none => []

/-- Transactions of a, b, dest, and then the write of the result. -/
def readReadWriteOps (m1 m2 m3 : Nat) (s : State) (result : Int → Int → Option Int) : List PortOp :=
  match modeOf m1, modeOf m2, modeOf m3 with
  | .ok k1, .ok k2, .ok k3 =>
    andThen (readOps s 1 k1) (readParam s 1 k1) fun a =>
      andThen (readOps s 2 k2) (readParam s 2 k2) fun b =>
        andThen (writeOps s 3 k3) (writeAddr s 3 k3) fun d => writeOp d (result a b)
  | _, _, _ => []

/-- Transactions of cond and target. -/
def readReadOps (m1 m2 : Nat) (s : State) : List PortOp :=
  match modeOf m1, modeOf m2 with
  | .ok k1, .ok k2 => andThen (readOps s 1 k1) (readParam s 1 k1) fun _ => readOps s 2 k2
  | _, _ => []

/-- The transactions of an instruction after its fetch (R106). -/
def instrOps (s : State) : Instr → List PortOp
  | .add m1 m2 m3 => readReadWriteOps m1 m2 m3 s fun a b => resultWord s.cfg (a + b)
  | .multiply m1 m2 m3 => readReadWriteOps m1 m2 m3 s fun a b => resultWord s.cfg (a * b)
  | .readInput m1 =>
    match modeOf m1 with
    | .ok k1 => andThen (writeOps s 1 k1) (writeAddr s 1 k1) fun d => writeOp d (some (inPop s).1)
    | .error _ => []
  | .writeOutput m1 =>
    match modeOf m1 with
    | .ok k1 => readOps s 1 k1
    | .error _ => []
  | .jumpIfTrue m1 m2 => readReadOps m1 m2 s
  | .jumpIfFalse m1 m2 => readReadOps m1 m2 s
  | .lessThan m1 m2 m3 => readReadWriteOps m1 m2 m3 s fun a b => some (lessWord a b)
  | .equals m1 m2 m3 => readReadWriteOps m1 m2 m3 s fun a b => some (equalWord a b)
  | .halt => []

/-- The memory transactions of the step from s, in the order the arbiter issues them (R106). -/
def portTrace (s : State) : List PortOp :=
  match s.st with
  | .running =>
    .rd s.ip :: match fetchDecode s with
      | .ok i => instrOps s i
      | .error _ => []
  | .ready => []
  | .halted => []
  | .faulted => []

end Sys2Proof.Machine
end

