-- ==== Sys2Proof/Machine/HostPort.lean ====
section
/-! DEFINITION. The host control interface (spec 40_engine.md R101, R116 to R119; 70_reset_and_hazards.md R231
to R234): the four transactions, and the answer of a RUN when it ends. They come from outside the
core and are no step of it (60_exceptions.md R211; log entry 8). -/

namespace Sys2Proof.Machine

/-- What the host can send (R101). A program or an input sequence is a list of integers, which the core
refuses unless each is a word (R232, R233). -/
inductive HostCommand
  | load (program : List Int)
  | run (inputs : List Int)
  | snapshot
  | status
  deriving DecidableEq, Repr

/-- The outcome of a run (R116). -/
inductive RunOutcome
  | halted (oq : List Word)
  | faulted (fr : FaultRecord) (oq : List Word)
  deriving DecidableEq, Repr

/-- The outcome a state holds once its run has ended (R115, R116). -/
def runOutcome (s : State) : Option RunOutcome :=
  match s.st with
  | .ready => none
  | .running => none
  | .halted => some (.halted s.oq)
  | .faulted => some (.faulted s.fr s.oq)

/-- The core's answers.
DESIGN CHOICE: `status` carries ST and, when Faulted, FR, as R101 and R118 say, and ip when Halted, because 45_halt.md
R180, D12 and the table of 93_implementation_defined.md call ip after a halt observable through STATUS (log entry 19). -/
inductive HostAnswer
  /-- LOAD's (R101) -/
  | accepted
  /-- not accepted; the state is unchanged (R232, R233; log entry 18 while ST = Running, log entry 20 for RUN) -/
  | refused
  | snapshot (words : List Word)
  | status (st : Status) (fr : Option FaultRecord) (ip : Option Nat)
  /-- RUN's, from the step that ends the run (`stepAnswer`) -/
  | ended (outcome : RunOutcome)
  deriving DecidableEq, Repr

/-- LOAD is accepted (R232). -/
abbrev LoadAccepted (p : List Int) (s : State) : Prop :=
  s.st ≠ .running ∧ p.length ≤ s.cfg.NMAX ∧ ∀ v ∈ p, IsWord s.cfg.W v

/-- The state after an accepted LOAD (R231). -/
def loadState (p : List Word) (s : State) : State :=
  (((((s.setMem (.ofWords p)).setIp 0).setIq []).setOq []).setFr .clear).setSt .ready

/-- RUN is accepted (R233). -/
abbrev RunAccepted (inputs : List Int) (s : State) : Prop :=
  s.st ≠ .running ∧ inputs.length ≤ s.cfg.IQ_CAP ∧ ∀ v ∈ inputs, IsWord s.cfg.W v

/-- The state at the start of an accepted RUN; M and N are not changed (R233). -/
def runState (inputs : List Word) (s : State) : State :=
  ((((s.setIp 0).setIq inputs).setOq []).setFr .clear).setSt .running

/-- FR as STATUS shows it: only when ST = Faulted (R118). -/
def visibleFaultRecord (s : State) : Option FaultRecord :=
  if s.st = .faulted then some s.fr else none

/-- ip as STATUS shows it after a halt (45_halt.md R180). After a fault it is FR.ip (log entry 19). -/
def visibleIp (s : State) : Option Nat :=
  if s.st = .halted then some s.ip else none

/-- One host transaction: the answer it has at once and the state after it. An accepted RUN has none: its one answer
comes when the run ends (R101, `stepAnswer`). While ST = Running nothing is accepted (R119), and the
answer is then `refused` (log entry 18). What STATUS shows of ip is log entry 19. -/
def hostTransact (c : HostCommand) (s : State) : Option HostAnswer × State :=
  match c with
  | .load p => if LoadAccepted p s then (some .accepted, loadState p s) else (some .refused, s)
  | .run inputs => if RunAccepted inputs s then (none, runState inputs s) else (some .refused, s)
  | .snapshot => if s.st = .running then (some .refused, s) else (some (.snapshot s.mem.toWords), s)
  | .status =>
    if s.st = .running then (some .refused, s)
    else (some (.status s.st (visibleFaultRecord s) (visibleIp s)), s)

/-- The answer of the step from s: the step that ends a run answers its RUN with the outcome, once (R101, R116). No
other step answers, so a run that never ends has no answer. -/
def stepAnswer (s : State) : Option HostAnswer :=
  if s.st = .running then
    match step s with
    | .next t => (runOutcome t).map .ended
    | .fault _ => none
    | .refused _ => none
  else none

/-- The 2-bit code of ST (10_state.md R25). -/
def Status.code : Status → BitVec 2
  | .ready => 0
  | .running => 1
  | .halted => 2
  | .faulted => 3

/-- The 2-bit code of FR.kind (R26, R200). -/
def FaultKind.code : FaultKind → BitVec 2
  | .none => 0
  | .invalidOpcode => 1
  | .addressOutOfBounds => 2
  | .invalidMode => 3

end Sys2Proof.Machine
end

