-- ==== Sys2Proof/Safety.lean ====
section
/-! DEFINITION. The terms the statements use: the invariant of the core's state, the reachable states, a step
that has a transition, the end of a run, and the spec's operand, destination and fault rules written out
over plain reads of memory, apart from the resolver that the meanings call. -/

namespace Sys2Proof.Machine

/-- Every value is a word of W bits. -/
abbrev AllWords (W : Nat) (vs : List Int) : Prop := ∀ v ∈ vs, IsWord W v

/-- The fault record (spec 10_state.md R26): an address is valid exactly for AddressOutOfBounds, and both
valid bits are clear in kind 0. -/
abbrev FaultRecord.Wf (W : Nat) (f : FaultRecord) : Prop :=
  (f.addr.isSome ↔ f.kind = .addressOutOfBounds) ∧ (f.kind = .none → f.word = none) ∧
    IsWord W f.ip ∧ (∀ w ∈ f.word, IsWord W w) ∧ ∀ a ∈ f.addr, IsWord W a

/-- Memory: canonical, no longer than NMAX (R21), every cell a word (R20). -/
abbrev Memory.Legal (c : Config) (m : Memory) : Prop :=
  m.wf ∧ m.size ≤ c.NMAX ∧ ∀ x ∈ m.cells, IsWord c.W x.2

/-- The queues hold words, within their capacities (R23, R24). -/
abbrev QueuesLegal (s : State) : Prop :=
  AllWords s.cfg.W s.iq ∧ s.iq.length ≤ s.cfg.IQ_CAP ∧ AllWords s.cfg.W s.oq ∧
    ∀ c ∈ s.cfg.OQ_CAP, s.oq.length ≤ c

/-- What ST says of the rest of the state (R22, R23, R24, R26; 45_halt.md R180; 60_exceptions.md R206). -/
abbrev StatusCoherent (s : State) : Prop :=
  (s.st = .faulted ↔ s.fr.kind ≠ .none) ∧
    (s.st = .faulted → s.fr.ip = s.ip ∧ s.fr.word = s.mem.read s.ip) ∧
    (s.st = .halted → (s.mem.read s.ip).bind (fun w => (decode w).toOption) = some .halt) ∧
    (s.st = .ready → s.ip = 0 ∧ s.iq = [] ∧ s.oq = [])

/-- The invariant of the core. -/
abbrev State.Wf (s : State) : Prop :=
  s.cfg.Wf ∧ Memory.Legal s.cfg s.mem ∧ s.ip ≤ s.mem.size ∧ QueuesLegal s ∧ s.fr.Wf s.cfg.W ∧ StatusCoherent s

/-- The states a core with parameters c can be in: power-on, then any steps and host transactions. -/
inductive Reachable (c : Config) : State → Prop
  | powerOn : Reachable c (.powerOn c)
  | step {s t : State} : Reachable c s → Machine.step s = .next t → Reachable c t
  | host {s : State} (cmd : HostCommand) : Reachable c s → Reachable c (hostTransact cmd s).2

/-- The states a core with parameters c can be in when no LOAD was sent since power-on. -/
inductive NeverLoaded (c : Config) : State → Prop
  | powerOn : NeverLoaded c (.powerOn c)
  | step {s t : State} : NeverLoaded c s → Machine.step s = .next t → NeverLoaded c t
  | host {s : State} (cmd : HostCommand) (h : ∀ p, cmd ≠ .load p) : NeverLoaded c s →
      NeverLoaded c (hostTransact cmd s).2

/-- The step has a transition: it is neither stuck nor refused. -/
def HasTransition (s : State) : Prop := ∃ t, step s = .next t

/-- A run has ended (40_engine.md R115). -/
abbrev RunEnded (s : State) : Prop := s.st = .halted ∨ s.st = .faulted

/-! ### What an operand and a destination are -/

/-- The value of read parameter k with mode digit d (spec 30_encoding.md R73): `M[M[ip+k]]` for digit 0,
`M[ip+k]` for digit 1. -/
abbrev IsOperand (s : State) (k d : Nat) (v : Int) : Prop :=
  (d = 0 ∧ (s.mem.read (slot s k)).bind s.mem.read = some v) ∨ (d = 1 ∧ s.mem.read (slot s k) = some v)

/-- The destination address of write parameter k with mode digit d (R74): `M[ip+k]` for digit 0, `ip+k`
for digit 1, inside [0, N). -/
abbrev IsDestination (s : State) (k d : Nat) (a : Int) : Prop :=
  s.mem.InBounds a ∧ ((d = 0 ∧ s.mem.read (slot s k) = some a) ∨ (d = 1 ∧ a = slot s k))

/-- Every used mode digit is 0 or 1 (R67). -/
abbrev LegalModes (i : Instr) : Prop := ∀ d ∈ i.modeDigits, d ≤ 1

/-- The address a storing instruction stores to, as its meaning resolves it; none if it faults first or
stores nothing. -/
def storedAddress (s : State) : Instr → Option Int
  | .add m1 m2 m3 | .multiply m1 m2 m3 | .lessThan m1 m2 m3 | .equals m1 m2 m3 =>
    (resolveReadReadWrite m1 m2 m3 s).toOption.map (·.2.2)
  | .readInput m1 => (resolveWrite m1 s).toOption
  | .writeOutput _ | .jumpIfTrue _ _ | .jumpIfFalse _ _ | .halt => none

/-! ### What faults, in the order of 60_exceptions.md R205 -/

/-- The offending address of parameter k with mode digit d, 0 or 1 (R202 b to d): the slot's own address
when the slot is outside memory, else, in position mode, the slot's word when that is outside. -/
def paramFault (s : State) (k d : Nat) : Option Int :=
  match s.mem.read (slot s k) with
  | none => some (slot s k)
  | some a => if d = 0 ∧ ¬ s.mem.InBounds a then some a else none

/-- The first offending address among parameters k, k+1, … with the given mode digits. -/
def firstParamFault (s : State) : Nat → List Nat → Option Int
  | _, [] => none
  | k, d :: ds => (paramFault s k d).or (firstParamFault s (k + 1) ds)

/-- The target t of a taken jump outside [0, N] (R202 e), for parameters cond = c and target = t. -/
def targetFault (s : State) (taken : Int → Bool) (c t : Option Int) : Option Int :=
  match c, t with
  | some c, some t => if taken c ∧ ¬ (0 ≤ t ∧ t ≤ s.mem.size) then some t else none
  | _, _ => none

/-- The value of a read parameter whose mode digit is 0 or 1. -/
def operandAt (s : State) (k d : Nat) : Option Int :=
  if d = 0 then (s.mem.read (slot s k)).bind s.mem.read else s.mem.read (slot s k)

/-- The offending next pointer of an instruction (R110): only a jump has one (R111). -/
def nextPointerFault (s : State) : Instr → Option Int
  | .jumpIfTrue m1 m2 => targetFault s (fun c => decide (c ≠ 0)) (operandAt s 1 m1) (operandAt s 2 m2)
  | .jumpIfFalse m1 m2 => targetFault s (fun c => decide (c = 0)) (operandAt s 1 m1) (operandAt s 2 m2)
  | .add _ _ _ | .multiply _ _ _ | .readInput _ | .writeOutput _ | .lessThan _ _ _ | .equals _ _ _ | .halt => none

/-- The fault of an instruction, if it has one: points 3 to 5 of R205. -/
def instrFault (s : State) (i : Instr) : Option Raise :=
  if ¬ LegalModes i then some .invalidMode
  else ((firstParamFault s 1 i.modeDigits).or (nextPointerFault s i)).map .addressOutOfBounds

/-- The fault of the step from a Running state, if it has one: points 1 to 5 of R205. -/
def stepFault (s : State) : Option Raise :=
  match s.mem.read s.ip with
  | none => some (.addressOutOfBounds s.ip)
  | some w =>
    match decode w with
    | .error _ => some .invalidOpcode
    | .ok i => instrFault s i

/-! ### The order of memory accesses (40_engine.md R106), over plain reads -/

/-- The accesses of parameter k with this role and mode digit, 0 or 1. A dereference or a check of a slot's word
needs the slot read to have answered one. -/
def paramOps (s : State) (k : Nat) (role : Role) (d : Nat) : List PortOp :=
  match role with
  | .read => .rd (slot s k) :: if d = 0 then (s.mem.read (slot s k)).toList.map .rd else []
  | .write => if d = 0 then .rd (slot s k) :: (s.mem.read (slot s k)).toList.map .check else [.check (slot s k)]

/-- The accesses of parameters k, k+1, … in order, up to the first parameter that offends. -/
def resolutionOps (s : State) : Nat → List (Role × Nat) → List PortOp
  | _, [] => []
  | k, (role, d) :: ps => paramOps s k role d ++ if paramFault s k d = none then resolutionOps s (k + 1) ps else []

/-- t is s after fault entry (R206): FR holds the kind, ip, the fetched word and the address, ST is Faulted,
and everything else is as before the step. -/
structure FaultEntered (s t : State) (kind : FaultKind) (word addr : Option Int) : Prop where
  kind : t.fr.kind = kind
  ip_recorded : t.fr.ip = s.ip
  word : t.fr.word = word
  addr : t.fr.addr = addr
  st : t.st = .faulted
  ip : t.ip = s.ip
  mem : t.mem = s.mem
  iq : t.iq = s.iq
  oq : t.oq = s.oq
  cfg : t.cfg = s.cfg

/-! ### What an instruction that completes leaves -/

/-- t is s with the word v in cell d and ip moved on by `length`; nothing else but IQ may differ. -/
structure StoredAndAdvanced (s t : State) (d : Int) (v : Int) (length : Nat) : Prop where
  stored : t.mem.read d = some v
  others : ∀ a, a ≠ d → t.mem.read a = s.mem.read a
  size : t.mem.size = s.mem.size
  ip : t.ip = s.ip + length
  oq : t.oq = s.oq
  st : t.st = s.st
  fr : t.fr = s.fr
  cfg : t.cfg = s.cfg

/-- t is s with ip at p; nothing else differs. -/
structure OnlyIpMoved (s t : State) (p : Int) : Prop where
  ip : (t.ip : Int) = p
  mem : t.mem = s.mem
  iq : t.iq = s.iq
  oq : t.oq = s.oq
  st : t.st = s.st
  fr : t.fr = s.fr
  cfg : t.cfg = s.cfg

end Sys2Proof.Machine
end

