-- ==== Sys2Proof/Certificates/Slice0/Obligations.lean ====
section
/-! DEFINITION. The statements for the provers. Rules are cited by file and number. "D<n>" is a decision of
92_eei_decisions.md: the spec's own choice, not its source's; a statement that rests on one says so and has basis
"derived". -/

open Sys2Proof Sys2Proof.Machine

/-! ### Power-on, LOAD, RUN and the other host transactions -/

/-- 70_reset_and_hazards.md R230 (the spec's decision D26): at power-on the core is in the state of an accepted LOAD
of the empty program. `State.reset` is that state for parameters that meet R7 and have the decided OVERFLOW and
OQ_CAP. That FR.ip is equal on both sides is the model's choice (log entry 9). -/
def Obligations.PowerOnIsLoadOfTheEmptyProgram : Prop :=
  (∀ c : Config, let s := State.powerOn c
    s.cfg = c ∧ s.mem.size = 0 ∧ (∀ a, s.mem.read a = none) ∧ s.ip = 0 ∧ s.iq = [] ∧ s.oq = [] ∧ s.st = .ready ∧
      s.fr.kind = .none ∧ s.fr.word = none ∧ s.fr.addr = none ∧ hostTransact (.load []) s = (some .accepted, s)) ∧
    ∃ c : Config, State.reset = State.powerOn c ∧ c.Wf ∧ c.Decided

/-- The invariant `State.Wf` holds at power-on, for all parameters that meet 00_scope.md R7, and so at reset. -/
def Obligations.PowerOnMeetsInvariant : Prop :=
  (∀ c : Config, c.Wf → (State.powerOn c).Wf) ∧ State.reset.Wf

/-- 70_reset_and_hazards.md R231: what an accepted LOAD sets. And no other host transaction writes M or N (10_state.md
R20, R21; 40_engine.md R117, R118; 70_reset_and_hazards.md R233; decision D29 for STATUS). -/
def Obligations.AcceptedLoadSetsEverything : Prop :=
  (∀ (p : List Int) (s : State), LoadAccepted p s → ∃ t, hostTransact (.load p) s = (some .accepted, t) ∧
    (∀ i : Nat, t.mem.read i = p[i]?) ∧ t.mem.size = p.length ∧ t.ip = 0 ∧ t.iq = [] ∧ t.oq = [] ∧
    t.fr.kind = .none ∧ t.fr.word = none ∧ t.fr.addr = none ∧ t.st = .ready ∧ t.cfg = s.cfg) ∧
  ∀ (cmd : HostCommand) (s : State), (∀ p, cmd ≠ .load p) → (hostTransact cmd s).2.mem = s.mem

/-- 70_reset_and_hazards.md R232 (decisions D22, D25, D27): the three cases in which LOAD is refused, that a refused
LOAD changes nothing, and that the empty program is accepted. -/
def Obligations.LoadIsRefusedInThreeCases : Prop :=
  ∀ (p : List Int) (s : State),
    ((s.st = .running ∨ s.cfg.NMAX < p.length ∨ ∃ v ∈ p, ¬ IsWord s.cfg.W v) ↔
      hostTransact (.load p) s = (some .refused, s)) ∧
    ((hostTransact (.load p) s).1 = some .refused → (hostTransact (.load p) s).2 = s) ∧
    (s.st ≠ .running → (hostTransact (.load []) s).1 = some .accepted)

/-- 70_reset_and_hazards.md R233 (decisions D14, D24, D25): when RUN is accepted, what it sets, and that it is refused
without change in every other case. An accepted RUN has no answer yet (40_engine.md R101). That a RUN which is not accepted
has the answer `refused` is the model's reading (log entry 20, during a run log entry 18). -/
def Obligations.RunStartsAtZeroOrIsRefused : Prop :=
  ∀ (inputs : List Int) (s : State),
    ((s.st = .ready ∨ s.st = .halted ∨ s.st = .faulted) → (∀ v ∈ inputs, IsWord s.cfg.W v) →
      inputs.length ≤ s.cfg.IQ_CAP → ∃ t, hostTransact (.run inputs) s = (none, t) ∧ t.ip = 0 ∧ t.iq = inputs ∧
        t.oq = [] ∧ t.fr.kind = .none ∧ t.fr.word = none ∧ t.fr.addr = none ∧ t.st = .running ∧ t.mem = s.mem ∧
        t.cfg = s.cfg) ∧
    ((s.st = .running ∨ (∃ v ∈ inputs, ¬ IsWord s.cfg.W v) ∨ s.cfg.IQ_CAP < inputs.length) →
      hostTransact (.run inputs) s = (some .refused, s))

/-- 70_reset_and_hazards.md R233, R234 (R234 is the spec's own inference): a RUN depends on memory and parameters
only. Two cores that are not Running and agree on them start the same run, whatever their earlier runs left in ip, IQ,
OQ, ST and FR (FR.ip apart, which the rules do not name). An
accepted RUN is one with no answer yet (40_engine.md R101). -/
def Obligations.RunForgetsEarlierRuns : Prop :=
  ∀ (inputs : List Int) (s s' : State), s.cfg = s'.cfg → s.mem = s'.mem → s.st ≠ .running → s'.st ≠ .running →
    let r := hostTransact (.run inputs) s
    let r' := hostTransact (.run inputs) s'
    r.1 = r'.1 ∧ (r.1 = none → r.2.mem = r'.2.mem ∧ r.2.ip = r'.2.ip ∧ r.2.iq = r'.2.iq ∧ r.2.oq = r'.2.oq ∧
      r.2.st = r'.2.st ∧ r.2.cfg = r'.2.cfg ∧ r.2.fr.kind = r'.2.fr.kind ∧ r.2.fr.word = r'.2.fr.word ∧
      r.2.fr.addr = r'.2.fr.addr)

/-- 40_engine.md R117: SNAPSHOT is accepted when ST ≠ Running, answers a copy of M[0] .. M[N−1] in address order and
changes no state. -/
def Obligations.SnapshotAnswersMemoryInOrder : Prop :=
  ∀ s : State, s.st ≠ .running → ∃ ws, hostTransact .snapshot s = (some (.snapshot ws), s) ∧ ws.length = s.mem.size ∧
    ∀ i : Nat, ws[i]? = s.mem.read i

/-- 40_engine.md R118 (decision D29): STATUS is accepted when ST ≠ Running, answers ST and, when Faulted, FR, and
changes no state. When Halted it also answers ip, which 45_halt.md R180 (decision D12) calls observable through STATUS;
that this is an ip beside ST, and only then, is the model's choice (log entry 19). -/
def Obligations.StatusShowsRecordWhenFaulted : Prop :=
  ∀ s : State, s.st ≠ .running →
    (s.st = .faulted → hostTransact .status s = (some (.status .faulted (some s.fr) none), s)) ∧
    (s.st = .halted → hostTransact .status s = (some (.status .halted none (some s.ip)), s)) ∧
    (s.st = .ready → hostTransact .status s = (some (.status .ready none none), s))

/-- 40_engine.md R119 (decision D27): while ST = Running the host can do nothing to the core. That a transaction sent
then answers `refused` is the model's reading of "not accepted" (DEDUCED, log entry 18). -/
def Obligations.HostHasNoMoveWhileRunning : Prop :=
  ∀ (cmd : HostCommand) (s : State), s.st = .running → hostTransact cmd s = (some .refused, s)

/-- 40_engine.md R102, R115 (R102's last sentence is decision D14): ST moves only as the table says. A Running step
goes to Faulted exactly when it raises a fault, to Halted exactly when it executes halt, and otherwise stays Running.
Only an accepted LOAD or RUN moves a core that is not Running. That a core that is not Running has a step, which
changes nothing, is the model's choice (log entry 7). -/
def Obligations.StatusMovesOnlyAsTabled : Prop :=
  (∀ s t : State, s.st = .running → step s = .next t →
    (t.st = .faulted ↔ stepFault s ≠ none) ∧
    (t.st = .halted ↔ ∃ w, s.mem.read s.ip = some w ∧ decode w = .ok .halt) ∧
    (t.st = .faulted ∨ t.st = .halted ∨ t.st = .running)) ∧
  (∀ s t : State, s.st ≠ .running → step s = .next t → t.st = s.st) ∧
  ∀ (cmd : HostCommand) (s : State), (hostTransact cmd s).2.st = s.st ∨
    (s.st ≠ .running ∧ (∃ p, cmd = .load p ∧ LoadAccepted p s) ∧ (hostTransact cmd s).2.st = .ready) ∨
    (s.st ≠ .running ∧ (∃ q, cmd = .run q ∧ RunAccepted q s) ∧ (hostTransact cmd s).2.st = .running)

/-- 70_reset_and_hazards.md R235 (the spec's own inference; decision D12 for ip): without any LOAD since power-on,
whatever steps and other transactions came between, the program is empty; and every RUN accepted over an empty program,
whatever its inputs, faults at its first fetch with AddressOutOfBounds at address 0 and answers Faulted with
no output. -/
def Obligations.RunWithoutLoadFaultsAtZero : Prop :=
  (∀ (c : Config) (s : State), NeverLoaded c s → s.mem.size = 0) ∧
  ∀ (inputs : List Int) (s : State), s.mem.size = 0 → RunAccepted inputs s →
    ∃ t u, hostTransact (.run inputs) s = (none, t) ∧ step t = .next u ∧
      FaultEntered t u .addressOutOfBounds none (some 0) ∧ u.fr.ip = 0 ∧ runOutcome u = some (.faulted u.fr []) ∧
      stepAnswer t = some (.ended (.faulted u.fr []))

/-! ### Memory -/

/-- 20_memory.md R41: reading a memory that holds the words p gives p[a] for 0 ≤ a < N, and faults with
AddressOutOfBounds and the offending address for any other a, a negative one among them. -/
def Obligations.MemReadIsBoundsChecked : Prop :=
  ∀ (s : State) (p : List Int), (∀ i : Nat, s.mem.read i = p[i]?) → s.mem.size = p.length → ∀ a : Int,
    (∀ i : Nat, a = i → ∀ v, p[i]? = some v → memRead s a = .ok v) ∧
    (a < 0 ∨ (p.length : Int) ≤ a → memRead s a = .error (.addressOutOfBounds a))

/-- 20_memory.md R42 and R50: a write inside memory is seen by every later read of that address and by no other, and
changes nothing else; a write outside faults with the offending address. That a destination the resolver accepted is
never refused by MemWrite is the spec's decision D8. -/
def Obligations.MemWriteThenRead : Prop :=
  ∀ (s : State) (a : Int) (v : Int), s.mem.wf →
    (s.mem.InBounds a → ∃ t, memWrite s a v = .ok t ∧ memRead t a = .ok v ∧
      (∀ b, b ≠ a → memRead t b = memRead s b) ∧ t.mem.size = s.mem.size ∧ t.ip = s.ip ∧ t.iq = s.iq ∧ t.oq = s.oq ∧
      t.st = s.st ∧ t.fr = s.fr ∧ t.cfg = s.cfg) ∧
    (¬ s.mem.InBounds a → memWrite s a v = .error (.addressOutOfBounds a)) ∧
    ∀ (k : Nat) (m : Mode), writeAddr s k m = .ok a → ∃ t, memWrite s a v = .ok t

/-- 20_memory.md R43: the memory never grows or shrinks except through a LOAD, and a write outside [0, N) faults. -/
def Obligations.MemoryLengthIsFixedByLoad : Prop :=
  (∀ s t : State, step s = .next t → t.mem.size = s.mem.size) ∧
  (∀ (cmd : HostCommand) (s : State), (∀ p, cmd ≠ .load p) → (hostTransact cmd s).2.mem.size = s.mem.size) ∧
  ∀ (s : State) (a : Int) (v : Int), ¬ (0 ≤ a ∧ a < s.mem.size) → memWrite s a v = .error (.addressOutOfBounds a)

/-- The representation of memory is the model's choice (log entry 3): two canonical memories of equal length with
equal reads are equal. -/
def Obligations.CanonicalMemoryIsDeterminedByReads : Prop :=
  ∀ m n : Memory, m.wf → n.wf → m.size = n.size → (∀ a, m.read a = n.read a) → m = n

/-- 20_memory.md R53: the word a step writes is what the next read of that cell gives, and what the next step runs if
it is fetched from there. The trace of port transactions is the model's view of R106 (log entry 14). -/
def Obligations.NextFetchSeesTheWrite : Prop :=
  ∀ (s t : State) (d : Int) (v : Int), s.mem.wf → step s = .next t → PortOp.wr d v ∈ portTrace s →
    memRead t d = .ok v ∧ ((t.ip : Int) = d → t.st = .running → ∀ i, decode v = .ok i → step t = exec i t)

/-- 40_engine.md R106, R107 (the spec's own inference): a step's first transaction is the fetch; every transaction
before the last is inside memory and is no write, so there is at most one write and it comes last; and a transaction
outside memory ends the step with AddressOutOfBounds at its address. The trace is the model's view (log entry 14). -/
def Obligations.PortReadsThenWritesOnce : Prop :=
  ∀ s : State,
    (s.st = .running → (portTrace s).head? = some (.rd s.ip)) ∧
    (∀ op ∈ (portTrace s).dropLast, s.mem.InBounds op.addr ∧ ∀ d v, op ≠ .wr d v) ∧
    (∀ op ∈ portTrace s, ¬ s.mem.InBounds op.addr → ∃ t, step s = .next t ∧
      FaultEntered s t .addressOutOfBounds (s.mem.read s.ip) (some op.addr)) ∧
    ∀ d v, PortOp.wr d v ∈ portTrace s → s.mem.InBounds d

/-- 40_engine.md R107, R108 (the spec's own inference): memory after a step is memory before it but for the one write
of the trace; without one it is unchanged. The trace is the model's view of R106 (log entry 14). -/
def Obligations.MemoryEffectIsTheTracedWrite : Prop :=
  ∀ s t : State, s.mem.wf → step s = .next t →
    (∀ d v, PortOp.wr d v ∈ portTrace s → t.mem.read d = some v ∧ ∀ a, a ≠ d → t.mem.read a = s.mem.read a) ∧
    ((∀ d v, PortOp.wr d v ∉ portTrace s) → t.mem = s.mem)

/-! ### Decoding and encoding -/

/-- 30_encoding.md R62, R63, R64: the opcode of a non-negative word is `w mod 100` and digits of weight 100 and above
never change it; the mode digit of parameter k is `(w / 10^(k+1)) mod 10`; a digit beyond the leading one is 0. -/
def Obligations.FieldsAreDecimalDigits : Prop :=
  ∀ w : Int, 0 ≤ w →
    (decodeFields w).tag = tagOf (w % 100).toNat ∧
    (∀ u : Int, 0 ≤ u → u % 100 = w % 100 → (decodeFields u).tag = (decodeFields w).tag) ∧
    ((decodeFields w).m1 : Int) = w / 100 % 10 ∧ ((decodeFields w).m2 : Int) = w / 1000 % 10 ∧
    ((decodeFields w).m3 : Int) = w / 10000 % 10 ∧
    (w < 100 → (decodeFields w).m1 = 0) ∧ (w < 1000 → (decodeFields w).m2 = 0) ∧ (w < 10000 → (decodeFields w).m3 = 0)

/-- 30_encoding.md R66, R69 (R66 is decision D4): exactly the non-negative words whose opcode is 1 to 8 or 99 decode,
each to an instruction of that opcode. -/
def Obligations.OpcodeMapIsClosed : Prop :=
  ∀ w : Int,
    ((∃ i, decode w = .ok i) ↔ 0 ≤ w ∧ w % 100 ∈ [1, 2, 3, 4, 5, 6, 7, 8, (99 : Int)]) ∧
    ∀ i, decode w = .ok i → (i.opcode : Int) = w % 100

/-- 30_encoding.md R68 (decision D6): digits of parameter positions the instruction does not use, and digits of weight
10^5 and above, are ignored. -/
def Obligations.UnusedDigitsAreIgnored : Prop :=
  ∀ (w u : Int) (i : Instr), decode w = .ok i → 0 ≤ u → u % 10 ^ (i.length + 1) = w % 10 ^ (i.length + 1) →
    decode u = .ok i

/-- 30_encoding.md R61 to R63, R69, R75 (R75 is the spec's own inference): decoding the encoded word of a well-formed
instruction gives it back, with every mode digit at every value 0 to 9. R75 gives words for the digits 0 and 1; that
digits 2 to 9 are well formed and encoded the same way is the model's choice (log entry 11). -/
def Obligations.DecodeInvertsEncode : Prop :=
  ∀ i : Instr, i.wellFormed = true → decode (encode i) = .ok i

/-- 30_encoding.md R68, R69, R75 (R68 is decision D6, R75 the spec's own inference): a word that decodes is, but for
its ignored digits, the encoded word of its well-formed instruction. R75 gives words for the digits 0 and 1; that digits
2 to 9 are well formed and encoded the same way is the model's choice (log entry 11). -/
def Obligations.EncodeInvertsDecodeUpToIgnoredDigits : Prop :=
  ∀ (w : Int) (i : Instr), decode w = .ok i → i.wellFormed = true ∧ encode i = w % 10 ^ (i.length + 1)

/-- 30_encoding.md R75 (the spec's own inference): the canonical word with modes 0 or 1 is
`OP + 100·m1 + 1000·m2 + 10000·m3`, an unused mode being 0; it is non-negative and below 11200. -/
def Obligations.CanonicalWordIsBelow11200 : Prop :=
  ∀ i : Instr, LegalModes i →
    encode i = i.opcode + 100 * i.modeDigits.getD 0 0 + 1000 * i.modeDigits.getD 1 0 + 10000 * i.modeDigits.getD 2 0 ∧
      0 ≤ encode i ∧ encode i < 11200

/-- 95_test_vectors.md Part 2: what some of the vectors' words decode to (D-1, D-2, D-5, D-6, D-8, D-10, D-13 and D-14 of
the decoder's table, 103 of I-1, 1106 of J-4, 1107 of C-1 to C-5). A sanity statement. -/
def Obligations.VectorWordsDecode : Prop :=
  (decode 1002).toOption = some (.multiply 0 1 0) ∧ (decode 11108).toOption = some (.equals 1 1 1) ∧
    (decode 100001).toOption = some (.add 0 0 0) ∧ (decode 1099).toOption = some .halt ∧
    (decode 20004).toOption = some (.writeOutput 0) ∧ (decode 2105).toOption = some (.jumpIfTrue 1 2) ∧
    (decode 103).toOption = some (.readInput 1) ∧ (decode 1106).toOption = some (.jumpIfFalse 1 1) ∧
    (decode 1107).toOption = some (.lessThan 1 1 0) ∧ (decode 98).toOption = none ∧ (decode (-99)).toOption = none

/-- 30_encoding.md R76 (decision D28): a line assembles to an instruction word that decodes to the mnemonic's
instruction with each parameter's mode, followed by the slot words in order; `.word` places its literal words. A text
assembles to its lines' words one after the other: a line whose `addr:` prefix is absent or right gives its words and
then the rest from the address after them, fails only if the rest fails, and a wrong prefix fails. The abstract syntax
is the model's (log entry 17). -/
def Obligations.AssembledLineIsItsInstruction : Prop :=
  (∀ a b d : AsmParam,
    (∃ w, (AsmBody.add a b d).assemble = [w, a.n, b.n, d.n] ∧ decode w = .ok (.add a.digit b.digit d.digit)) ∧
    (∃ w, (AsmBody.mul a b d).assemble = [w, a.n, b.n, d.n] ∧ decode w = .ok (.multiply a.digit b.digit d.digit)) ∧
    (∃ w, (AsmBody.lt a b d).assemble = [w, a.n, b.n, d.n] ∧ decode w = .ok (.lessThan a.digit b.digit d.digit)) ∧
    (∃ w, (AsmBody.eq a b d).assemble = [w, a.n, b.n, d.n] ∧ decode w = .ok (.equals a.digit b.digit d.digit)) ∧
    (∃ w, (AsmBody.jt a b).assemble = [w, a.n, b.n] ∧ decode w = .ok (.jumpIfTrue a.digit b.digit)) ∧
    (∃ w, (AsmBody.jf a b).assemble = [w, a.n, b.n] ∧ decode w = .ok (.jumpIfFalse a.digit b.digit)) ∧
    (∃ w, (AsmBody.inp d).assemble = [w, d.n] ∧ decode w = .ok (.readInput d.digit)) ∧
    (∃ w, (AsmBody.out a).assemble = [w, a.n] ∧ decode w = .ok (.writeOutput a.digit)) ∧
    ∃ w, AsmBody.halt.assemble = [w] ∧ decode w = .ok .halt) ∧
  (∀ vs : List Int, (AsmBody.words vs).assemble = vs) ∧
  (∀ p : Nat, assembleFrom p [] = some []) ∧
  (∀ (p : Nat) (pre : Option Nat) (b : AsmBody) (ls : List AsmLine), pre = none ∨ pre = some p →
    (∀ rest, assembleFrom (p + b.assemble.length) ls = some rest →
      assembleFrom p (⟨pre, b⟩ :: ls) = some (b.assemble ++ rest)) ∧
    (assembleFrom (p + b.assemble.length) ls = none → assembleFrom p (⟨pre, b⟩ :: ls) = none)) ∧
  ∀ (p n : Nat) (b : AsmBody) (ls : List AsmLine), n ≠ p → assembleFrom p (⟨some n, b⟩ :: ls) = none

/-! ### The step -/

/-- 40_engine.md R103, R104: while ST = Running, the step from a state whose word at ip decodes to i is exec of i at
that state; nothing is done around it. -/
def Obligations.StepRunsTheDecodedInstruction : Prop :=
  ∀ (s : State) (w : Int) (i : Instr), s.st = .running → s.mem.read s.ip = some w → decode w = .ok i →
    step s = exec i s

/-- 60_exceptions.md R216 and 40_engine.md R102: a core that is Ready, Halted or Faulted takes no step of its own and
all its state survives. That its step answers the same state is the model's choice (log entry 7). -/
def Obligations.CoreNotRunningKeepsItsState : Prop :=
  ∀ s : State, s.st ≠ .running → step s = .next s

/-- 60_exceptions.md R201 (its clause on negative words is decision D4): a fetched word that is negative or whose
opcode is none of the nine raises InvalidOpcode, with the word recorded and no address. -/
def Obligations.InvalidOpcodeIsRaised : Prop :=
  ∀ (s : State) (w : Int), s.st = .running → s.mem.read s.ip = some w →
    (w < 0 ∨ w % 100 ∉ [1, 2, 3, 4, 5, 6, 7, 8, (99 : Int)]) →
    ∃ t, step s = .next t ∧ FaultEntered s t .invalidOpcode (some w) none

/-- 60_exceptions.md R203 (decisions D5, D10): a used mode digit of 2 to 9 raises InvalidMode, before any parameter
slot is read, with the word recorded and no address. -/
def Obligations.InvalidModeIsRaised : Prop :=
  ∀ (s : State) (w : Int) (i : Instr) (d : Nat), s.st = .running → s.mem.read s.ip = some w → decode w = .ok i →
    d ∈ i.modeDigits → 2 ≤ d → ∃ t, step s = .next t ∧ FaultEntered s t .invalidMode (some w) none

/-- 60_exceptions.md R202: the five places that raise AddressOutOfBounds, and what each records. (a) is the fetch;
(b), (c) and (d) are parameter k + 1, the first that offends once all modes are legal (R205, decision D8); (e) is the
next pointer of a taken jump. Each leaves the state as R206 says, ip kept (decision D12). -/
def Obligations.AddressFaultsInFivePlaces : Prop :=
  ∀ s : State, s.st = .running →
    (s.ip = s.mem.size → ∃ t, step s = .next t ∧ FaultEntered s t .addressOutOfBounds none (some s.ip)) ∧
    (∀ (w : Int) (i : Instr) (k d : Nat), s.mem.read s.ip = some w → decode w = .ok i → LegalModes i →
      i.modeDigits[k]? = some d → (∀ j e, j < k → i.modeDigits[j]? = some e → paramFault s (j + 1) e = none) →
      ((s.mem.size ≤ s.ip + (k + 1) → ∃ t, step s = .next t ∧
          FaultEntered s t .addressOutOfBounds (some w) (some ((s.ip : Int) + (k + 1)))) ∧
        ∀ a : Int, d = 0 → s.mem.read ((s.ip : Int) + (k + 1)) = some a → (a < 0 ∨ (s.mem.size : Int) ≤ a) →
          ∃ t, step s = .next t ∧ FaultEntered s t .addressOutOfBounds (some w) (some a))) ∧
    ∀ (w : Int) (m1 m2 : Nat) (c x : Int), s.mem.read s.ip = some w → IsOperand s 1 m1 c → IsOperand s 2 m2 x →
      (x < 0 ∨ (s.mem.size : Int) < x) →
      (decode w = .ok (.jumpIfTrue m1 m2) ∧ c ≠ 0 ∨ decode w = .ok (.jumpIfFalse m1 m2) ∧ c = 0) →
      ∃ t, step s = .next t ∧ FaultEntered s t .addressOutOfBounds (some w) (some x)

/-- 60_exceptions.md R205 (decision D8): a Running step raises the first fault it meets in the order of R205, which
`stepFault` writes out over plain reads of memory, and without one it raises none and leaves FR alone. -/
def Obligations.StepFaultsInPriorityOrder : Prop :=
  ∀ s : State, s.st = .running →
    (∀ r, stepFault s = some r → ∃ t, step s = .next t ∧ FaultEntered s t r.kind (s.mem.read s.ip) r.addr) ∧
    (stepFault s = none → ∀ t, step s = .next t → t.st ≠ .faulted ∧ t.fr = s.fr)

/-- 60_exceptions.md R204, R206, R207 (decision D12 for ip; R207 is the spec's own inference): every fault is precise
and is reported. A step that faults leaves ip, M, IQ and OQ as before it, records a kind other than 0, ip, the fetched
word, and an address exactly for AddressOutOfBounds; and the run's outcome is Faulted(FR, OQ). -/
def Obligations.EveryFaultIsPreciseAndReported : Prop :=
  ∀ s t : State, s.st = .running → step s = .next t → t.st = .faulted →
    ∃ k a, k ≠ .none ∧ (a.isSome ↔ k = .addressOutOfBounds) ∧ FaultEntered s t k (s.mem.read s.ip) a ∧
      runOutcome t = some (.faulted t.fr s.oq)

/-- 40_engine.md R110: a next pointer in [0, N] is written to ip; any other raises AddressOutOfBounds with that value
and ip keeps its address; N itself is accepted, and the fetch of the following step then faults at N. -/
def Obligations.NextPointerIsChecked : Prop :=
  ∀ (next : Int) (s : State),
    (0 ≤ next → next ≤ s.mem.size → ∃ t, setNext next s = .next t ∧ OnlyIpMoved s t next) ∧
    (next < 0 ∨ (s.mem.size : Int) < next → ∃ t, setNext next s = .next t ∧
      FaultEntered s t .addressOutOfBounds (s.mem.read s.ip) (some next)) ∧
    (next = s.mem.size → s.st = .running → ∃ t u, setNext next s = .next t ∧ step t = .next u ∧
      FaultEntered t u .addressOutOfBounds none (some s.mem.size))

/-- 40_engine.md R109, R111 (decision D3; R111 is the spec's own inference): an instruction other than a jump or halt
that completes goes on at ip + length, and that value always lies in [1, N]. -/
def Obligations.StrideNeverLeavesMemory : Prop :=
  ∀ (s t : State) (i : Instr), (∀ m1 m2, i ≠ .jumpIfTrue m1 m2 ∧ i ≠ .jumpIfFalse m1 m2) → i ≠ .halt →
    instrFault s i = none → exec i s = .next t → t.ip = s.ip + i.length ∧ 1 ≤ t.ip ∧ t.ip ≤ s.mem.size

/-! ### The instructions: when each completes, and with what result -/

/-- 41_arithmetic.md R141, R140 (overflow is decision D2): add with resolved operands a, b and destination d stores
`wrap_W(a + b)` in cell d and goes on at ip + 4, and nothing else changes. -/
def Obligations.AddStoresWrappedSum : Prop :=
  ∀ (s : State) (m1 m2 m3 : Nat) (a b : Int) (d : Int), s.cfg.OVERFLOW = .wrap → s.mem.wf → IsOperand s 1 m1 a →
    IsOperand s 2 m2 b → IsDestination s 3 m3 d → ∃ t, exec (.add m1 m2 m3) s = .next t ∧
      StoredAndAdvanced s t d (wrapWord s.cfg.W (a + b)) 4 ∧ t.iq = s.iq

/-- 41_arithmetic.md R142, R140 (overflow is decision D2): multiply stores `wrap_W(a · b)`. -/
def Obligations.MultiplyStoresWrappedProduct : Prop :=
  ∀ (s : State) (m1 m2 m3 : Nat) (a b : Int) (d : Int), s.cfg.OVERFLOW = .wrap → s.mem.wf → IsOperand s 1 m1 a →
    IsOperand s 2 m2 b → IsDestination s 3 m3 d → ∃ t, exec (.multiply m1 m2 m3) s = .next t ∧
      StoredAndAdvanced s t d (wrapWord s.cfg.W (a * b)) 4 ∧ t.iq = s.iq

/-- 41_arithmetic.md R140 (decision D2): an exact sum or product that is a word is stored unchanged under both settings
of OVERFLOW; under refuse one that is no word refuses the run. -/
def Obligations.OverflowSettingsAgreeInRange : Prop :=
  ∀ (s : State) (m1 m2 m3 : Nat) (a b : Int) (d : Int), s.cfg.Wf → s.mem.wf → IsOperand s 1 m1 a →
    IsOperand s 2 m2 b → IsDestination s 3 m3 d →
    ∀ (i : Instr) (exact : Int), (i = .add m1 m2 m3 ∧ exact = a + b ∨ i = .multiply m1 m2 m3 ∧ exact = a * b) →
      (IsWord s.cfg.W exact → ∃ t, exec i s = .next t ∧ StoredAndAdvanced s t d exact 4 ∧ t.iq = s.iq) ∧
      (¬ IsWord s.cfg.W exact → s.cfg.OVERFLOW = .refuse → exec i s = .refused .resultOutOfRange)

/-- 00_scope.md R10: `wrap_W(v)` is the unique word congruent to v modulo 2^W. -/
def Obligations.WrapIsTheCongruentWord : Prop :=
  ∀ (W : Nat) (v : Int), 1 ≤ W → IsWord W (wrapWord W v) ∧ (2 ^ W : Int) ∣ wrapWord W v - v ∧
    ∀ u, IsWord W u → (2 ^ W : Int) ∣ u - v → u = wrapWord W v

/-- 41_arithmetic.md R141, R142: every corner case their lists give for a value, under wrap (decision D2), for every
width the spec allows. -/
def Obligations.WrapCornerCases : Prop :=
  ∀ W : Nat, 16 ≤ W →
    wrapWord W (wordMax W + 1) = wordMin W ∧ wrapWord W (wordMin W + -1) = wordMax W ∧
    wrapWord W (-3 * -4) = 12 ∧ wrapWord W (-3 * 4) = -12 ∧
    wrapWord W (wordMin W * -1) = wordMin W ∧ wrapWord W (wordMax W * 2) = -2 ∧
    wrapWord W (wordMax W * wordMax W) = 1 ∧ wrapWord W (wordMin W * wordMin W) = 0 ∧
    ∀ a, IsWord W a → wrapWord W (a + 0) = a ∧ wrapWord W (a * 0) = 0

/-- 44_compare.md R170, R171: less-than stores 1 when a < b as signed integers and 0 otherwise, goes on at ip + 4, and
changes nothing else. -/
def Obligations.LessThanStoresTruth : Prop :=
  ∀ (s : State) (m1 m2 m3 : Nat) (a b : Int) (d : Int), s.mem.wf → IsOperand s 1 m1 a → IsOperand s 2 m2 b →
    IsDestination s 3 m3 d → ∃ t, exec (.lessThan m1 m2 m3) s = .next t ∧
      StoredAndAdvanced s t d (if a < b then 1 else 0) 4 ∧ t.iq = s.iq

/-- 44_compare.md R170, R172: equals stores 1 when a = b and 0 otherwise, goes on at ip + 4, and changes nothing
else. -/
def Obligations.EqualsStoresTruth : Prop :=
  ∀ (s : State) (m1 m2 m3 : Nat) (a b : Int) (d : Int), s.mem.wf → IsOperand s 1 m1 a → IsOperand s 2 m2 b →
    IsDestination s 3 m3 d → ∃ t, exec (.equals m1 m2 m3) s = .next t ∧
      StoredAndAdvanced s t d (if a = b then 1 else 0) 4 ∧ t.iq = s.iq

/-- 42_io.md R150: read-input with a resolved destination stores the head of the input queue and removes it; from an
empty queue it stores 0 and the queue stays empty. It goes on at ip + 2 and changes nothing else. -/
def Obligations.ReadInputStoresHeadOrZero : Prop :=
  ∀ (s : State) (m1 : Nat) (d : Int), s.mem.wf → IsDestination s 1 m1 d →
    (∀ v vs, s.iq = v :: vs → ∃ t, exec (.readInput m1) s = .next t ∧ StoredAndAdvanced s t d v 2 ∧ t.iq = vs) ∧
    (s.iq = [] → ∃ t, exec (.readInput m1) s = .next t ∧ StoredAndAdvanced s t d 0 2 ∧ t.iq = [])

/-- 42_io.md R151 and 40_engine.md R113: write-output with a resolved operand v, and room in the log, appends v at the
end of the log, goes on at ip + 2 and changes nothing else. -/
def Obligations.WriteOutputAppends : Prop :=
  ∀ (s : State) (m1 : Nat) (v : Int), IsOperand s 1 m1 v → HasOutputRoom s →
    ∃ t, exec (.writeOutput m1) s = .next t ∧ t.oq = s.oq ++ [v] ∧ t.ip = s.ip + 2 ∧ t.mem = s.mem ∧ t.iq = s.iq ∧
      t.st = s.st ∧ t.fr = s.fr ∧ t.cfg = s.cfg

/-- 43_branch.md R160: jump-if-true with resolved cond c and target x goes to x when c ≠ 0 and x lies in [0, N], and to
ip + 3 when c = 0 whatever x is; a taken jump to any other x faults with that address. -/
def Obligations.JumpIfTrueGoesToTarget : Prop :=
  ∀ (s : State) (m1 m2 : Nat) (c x : Int), IsOperand s 1 m1 c → IsOperand s 2 m2 x →
    (c ≠ 0 → 0 ≤ x → x ≤ s.mem.size → ∃ t, exec (.jumpIfTrue m1 m2) s = .next t ∧ OnlyIpMoved s t x) ∧
    (c = 0 → ∃ t, exec (.jumpIfTrue m1 m2) s = .next t ∧ OnlyIpMoved s t ((s.ip : Int) + 3)) ∧
    (c ≠ 0 → x < 0 ∨ (s.mem.size : Int) < x → ∃ t, exec (.jumpIfTrue m1 m2) s = .next t ∧
      FaultEntered s t .addressOutOfBounds (s.mem.read s.ip) (some x))

/-- 43_branch.md R161: jump-if-false with resolved cond c and target x goes to x when c = 0 and x lies in [0, N], and
to ip + 3 when c ≠ 0 whatever x is; a taken jump to any other x faults with that address. -/
def Obligations.JumpIfFalseGoesToTarget : Prop :=
  ∀ (s : State) (m1 m2 : Nat) (c x : Int), IsOperand s 1 m1 c → IsOperand s 2 m2 x →
    (c = 0 → 0 ≤ x → x ≤ s.mem.size → ∃ t, exec (.jumpIfFalse m1 m2) s = .next t ∧ OnlyIpMoved s t x) ∧
    (c ≠ 0 → ∃ t, exec (.jumpIfFalse m1 m2) s = .next t ∧ OnlyIpMoved s t ((s.ip : Int) + 3)) ∧
    (c = 0 → x < 0 ∨ (s.mem.size : Int) < x → ∃ t, exec (.jumpIfFalse m1 m2) s = .next t ∧
      FaultEntered s t .addressOutOfBounds (s.mem.read s.ip) (some x))

/-- 45_halt.md R180 (decisions D12, D13): halt sets ST to Halted and changes nothing else; ip keeps its address, and
the run's outcome is Halted(OQ). The kept ip is observable through STATUS (the form of that answer is log entry 19). -/
def Obligations.HaltStopsInPlace : Prop :=
  ∀ s : State, ∃ t, exec .halt s = .next t ∧ t.st = .halted ∧ t.ip = s.ip ∧ t.mem = s.mem ∧ t.iq = s.iq ∧ t.oq = s.oq ∧
    t.fr = s.fr ∧ t.cfg = s.cfg ∧ runOutcome t = some (.halted s.oq) ∧
    hostTransact .status t = (some (.status .halted none (some s.ip)), t)

/-! ### Frames -/

/-- The frame of the storing instructions add, multiply, less-than, equals and read-input (40_engine.md R105, R107;
60_exceptions.md R206). Whenever one gives a next state: every cell other than the resolved destination reads as
before, and every cell does if none is resolved; N, OQ and the parameters are unchanged; IQ is unchanged but for a
read-input that completes, which leaves the tail; ST and FR are unchanged unless the instruction faults, and then ip,
IQ and all of memory are as before. -/
def Obligations.StoringInstructionsFrame : Prop :=
  ∀ (m1 m2 m3 : Nat), ∀ i ∈ [Instr.add m1 m2 m3, .multiply m1 m2 m3, .lessThan m1 m2 m3, .equals m1 m2 m3,
      .readInput m1], ∀ s t : State, s.mem.wf → exec i s = .next t →
    (∀ d, storedAddress s i = some d → ∀ a, a ≠ d → t.mem.read a = s.mem.read a) ∧
    (storedAddress s i = none → ∀ a, t.mem.read a = s.mem.read a) ∧
    t.mem.size = s.mem.size ∧ t.oq = s.oq ∧ t.cfg = s.cfg ∧
    t.iq = (if i = .readInput m1 ∧ instrFault s i = none then s.iq.tail else s.iq) ∧
    (instrFault s i = none → t.st = s.st ∧ t.fr = s.fr) ∧
    (instrFault s i ≠ none → t.st = .faulted ∧ t.ip = s.ip ∧ t.iq = s.iq ∧ t.mem = s.mem)

/-- The frame of the instructions that store nothing: write-output, jump-if-true, jump-if-false and halt (40_engine.md
R105, R107; 60_exceptions.md R206). Whenever one gives a next state: every cell reads as before; N, IQ and the
parameters are unchanged; OQ is unchanged but for a write-output that completes, which appends its operand; ST and FR
are unchanged unless the instruction faults, and halt sets ST only. -/
def Obligations.NonStoringInstructionsFrame : Prop :=
  ∀ (m1 m2 : Nat), ∀ i ∈ [Instr.writeOutput m1, .jumpIfTrue m1 m2, .jumpIfFalse m1 m2, .halt], ∀ s t : State,
    exec i s = .next t →
    (∀ a, t.mem.read a = s.mem.read a) ∧ t.mem.size = s.mem.size ∧ t.iq = s.iq ∧ t.cfg = s.cfg ∧
    ((i = .writeOutput m1 ∧ instrFault s i = none ∧ ∃ v, IsOperand s 1 m1 v ∧ t.oq = s.oq ++ [v]) ∨
      (¬ (i = .writeOutput m1 ∧ instrFault s i = none) ∧ t.oq = s.oq)) ∧
    (instrFault s i = none → t.fr = s.fr ∧ t.st = if i = .halt then .halted else s.st) ∧
    (instrFault s i ≠ none → t.st = .faulted ∧ t.ip = s.ip ∧ t.oq = s.oq)

/-! ### The queues, and the only stops -/

/-- 40_engine.md R112: InPop returns the head and removes it, or 0 from an empty queue, which stays empty; only a
read-input that completes changes IQ, and it pops once. -/
def Obligations.InputIsPoppedInOrder : Prop :=
  (∀ (s : State) (v : Int) (vs : List Int), s.iq = v :: vs → (inPop s).1 = v ∧ (inPop s).2.iq = vs) ∧
  (∀ s : State, s.iq = [] → (inPop s).1 = 0 ∧ (inPop s).2.iq = []) ∧
  ∀ s t : State, step s = .next t → t.iq = s.iq ∨
    (∃ w m1, s.st = .running ∧ s.mem.read s.ip = some w ∧ decode w = .ok (.readInput m1) ∧ stepFault s = none ∧
      t.iq = (inPop s).2.iq)

/-- 10_state.md R24 and 40_engine.md R113: only a write-output that completes changes OQ, and it appends its operand
at the end, so every earlier output stays in place. -/
def Obligations.OutputLogOnlyGrowsAtItsEnd : Prop :=
  ∀ s t : State, step s = .next t → t.oq = s.oq ∨
    ∃ w m1 v, s.st = .running ∧ s.mem.read s.ip = some w ∧ decode w = .ok (.writeOutput m1) ∧ IsOperand s 1 m1 v ∧
      t.oq = s.oq ++ [v]

/-- 40_engine.md R113 (decision D23): the step has no transition, so the core is stuck, exactly when a resolved
write-output meets a finite log that is full. -/
def Obligations.CoreIsStuckOnlyOnAFullLog : Prop :=
  ∀ s : State, (∃ f, step s = .fault f) ↔
    ∃ w m1 v c, s.st = .running ∧ s.mem.read s.ip = some w ∧ decode w = .ok (.writeOutput m1) ∧ IsOperand s 1 m1 v ∧
      s.cfg.OQ_CAP = some c ∧ c ≤ s.oq.length

/-- 41_arithmetic.md R140 (decision D2): a step is refused only when OVERFLOW is refuse and an add or multiply has an
exact result that is no word. -/
def Obligations.OnlyOverflowIsRefused : Prop :=
  ∀ (s : State) (r : Refusal), step s = .refused r → r = .resultOutOfRange ∧ s.cfg.OVERFLOW = .refuse ∧
    ∃ w m1 m2 m3 a b, s.mem.read s.ip = some w ∧ IsOperand s 1 m1 a ∧ IsOperand s 2 m2 b ∧
      (decode w = .ok (.add m1 m2 m3) ∧ ¬ IsWord s.cfg.W (a + b) ∨
        decode w = .ok (.multiply m1 m2 m3) ∧ ¬ IsWord s.cfg.W (a * b))

/-- With the parameters the spec decides (OVERFLOW wrap, OQ_CAP unbounded: decisions D2, D23) every step of every
state has a transition: nothing a program does can stop the model (40_engine.md R103, R113, R114). For a core that is not
Running the spec has no step, and the transition, to the same state, is the model's choice (log entry 7). -/
def Obligations.DecidedCoreAlwaysHasATransition : Prop :=
  ∀ s : State, s.cfg.Decided → HasTransition s

/-! ### The invariant -/

/-- Every step keeps the invariant: memory stays canonical, no longer than NMAX and full of words; 0 ≤ ip ≤ N; the
queues hold words within their capacities; FR and ST agree (10_state.md R20 to R26). -/
def Obligations.StepKeepsInvariant : Prop :=
  ∀ s t : State, s.Wf → step s = .next t → t.Wf

/-- Every host transaction keeps the invariant, whatever the host sends (70_reset_and_hazards.md R231 to R233). -/
def Obligations.HostKeepsInvariant : Prop :=
  ∀ (cmd : HostCommand) (s : State), s.Wf → (hostTransact cmd s).2.Wf

/-- Every state a core can be in, after any steps and any host transactions since power-on, meets the invariant and
has the parameters the core was built with. -/
def Obligations.ReachableStatesMeetInvariant : Prop :=
  ∀ (c : Config) (s : State), c.Wf → Reachable c s → s.Wf ∧ s.cfg = c

/-! ### The accesses of a step -/

/-- 40_engine.md R106 (the spec's own inference; decision D8 for the order): a Running step's port transactions are the
fetch; then, when the word decodes and all used mode digits are legal, those of the parameters 1 to p in order, for a
read parameter the slot read and in position mode the dereference, for a write parameter the slot read and the check of
the address read, or in immediate mode the check of the slot's own address, up to the first that fails; then the write
to the resolved destination, if the instruction has one and its result is not refused (R140). A core that is not Running
issues none. `resolutionOps` writes the order out over plain reads of memory; the trace is the model's view (log
entry 14). -/
def Obligations.PortTraceFollowsTheAccessOrder : Prop :=
  ∀ s : State,
    (s.st ≠ .running → portTrace s = []) ∧
    (s.st = .running → (∀ w, s.mem.read s.ip = some w → ∀ i, decode w ≠ .ok i) → portTrace s = [.rd s.ip]) ∧
    ∀ (w : Int) (i : Instr), s.st = .running → s.mem.read s.ip = some w → decode w = .ok i →
      (¬ LegalModes i → portTrace s = [.rd s.ip]) ∧
      (LegalModes i → ∃ ws,
        portTrace s = .rd s.ip :: (resolutionOps s 1 (i.roles.zip i.modeDigits) ++ ws) ∧
        (storedAddress s i = none → ws = []) ∧
        ∀ d, storedAddress s i = some d → (∃ v, ws = [.wr d v]) ∨ (ws = [] ∧ ∃ r, step s = .refused r))

/-! ### The answer of a RUN -/

/-- 40_engine.md R101, R115, R116 (R101's transaction-level interfaces are decision D21, the outputs of a faulted run
decision D15): along any unending sequence of steps, such as those after an accepted RUN, with which the host cannot
interfere before the run ends, the step that halts answers Halted(OQ) and the step that faults answers Faulted(FR, OQ);
an answer comes only from the step that ends the run, and only once; and a run that never ends has no answer. Nor has a
step without a transition. That a core steps on unchanged after its run is the model's choice (log entry 7). -/
def Obligations.RunIsAnsweredOnceWhenItEnds : Prop :=
  (∀ f : Nat → State, (∀ n, step (f n) = .next (f (n + 1))) →
    (∀ n, (f n).st = .running → (f (n + 1)).st = .halted →
      stepAnswer (f n) = some (.ended (.halted (f (n + 1)).oq))) ∧
    (∀ n, (f n).st = .running → (f (n + 1)).st = .faulted →
      stepAnswer (f n) = some (.ended (.faulted (f (n + 1)).fr (f (n + 1)).oq))) ∧
    (∀ n a, stepAnswer (f n) = some a → (f n).st = .running ∧ RunEnded (f (n + 1)) ∧
      ∀ m, m ≠ n → stepAnswer (f m) = none) ∧
    ((∀ n, (f n).st = .running) → ∀ n, stepAnswer (f n) = none)) ∧
  ∀ s : State, (∀ t, step s ≠ .next t) → stepAnswer s = none
end

