-- ==== Sys2Proof/Laws/Arithmetic.lean ====
section
/-! SUPPORT. Words and the mapping of exact results to words. -/

namespace Sys2Proof.Machine

/-- 2^W is twice 2^(W−1). -/
theorem two_pow_split {W : Nat} (h : 1 ≤ W) : (2 ^ W : Nat) = 2 * 2 ^ (W - 1) := by
  obtain ⟨n, rfl⟩ : ∃ n, W = n + 1 := ⟨W - 1, by omega⟩
  rw [Nat.add_sub_cancel, Nat.pow_succ, Nat.mul_comm]

theorem isWord_iff {W : Nat} {v : Int} :
    IsWord W v ↔ -((2 ^ (W - 1) : Nat) : Int) ≤ v ∧ v < ((2 ^ (W - 1) : Nat) : Int) := by
  unfold IsWord wordMin wordMax
  omega

/-- A wrapped value is a word (00_scope.md R10). -/
theorem wrapWord_isWord {W : Nat} (h : 1 ≤ W) (v : Int) : IsWord W (wrapWord W v) := by
  have hp := two_pow_split h
  have h1 := @Int.le_bmod v (2 ^ W) (by positivity)
  have h2 := @Int.bmod_lt v (2 ^ W) (by positivity)
  rw [isWord_iff, wrapWord]
  rw [hp] at h1 h2 ⊢
  push_cast at *
  omega

/-- A word wraps to itself. -/
theorem wrapWord_of_isWord {W : Nat} (h : 1 ≤ W) {v : Int} (hv : IsWord W v) : wrapWord W v = v := by
  have hp := two_pow_split h
  rw [isWord_iff] at hv
  rw [wrapWord]
  apply Int.bmod_eq_of_le <;> rw [hp] <;> push_cast at * <;> omega

/-- 1 and 0 are words, and so is any truth value (44_compare.md R170). -/
theorem truthWord_isWord {W : Nat} (h : 2 ≤ W) (b : Bool) : IsWord W (truthWord b) := by
  have : 2 ≤ 2 ^ (W - 1) := Nat.le_self_pow (Nat.sub_ne_zero_of_lt h) 2
  rw [isWord_iff]
  cases b <;> simp only [truthWord, if_true, Bool.false_eq_true, if_false] <;> omega

theorem zero_isWord (W : Nat) : IsWord W 0 := by
  have : 0 < 2 ^ (W - 1) := by positivity
  rw [isWord_iff]
  omega

/-- The result of add or multiply is a word when there is one. -/
theorem resultWord_isWord {c : Config} (h : 1 ≤ c.W) {x : Int} {v : Int} (hv : resultWord c x = some v) :
    IsWord c.W v := by
  unfold resultWord at hv
  split at hv
  · cases hv; exact wrapWord_isWord h x
  · split at hv
    · next hx => cases hv; exact hx
    · cases hv

/-- Under wrap there is always a result (R140). -/
theorem resultWord_wrap {c : Config} (h : c.OVERFLOW = .wrap) (x : Int) :
    resultWord c x = some (wrapWord c.W x) := by
  simp [resultWord, h]

/-- There is no result only under refuse, for an exact value that is no word (R140). -/
theorem resultWord_eq_none {c : Config} {x : Int} :
    resultWord c x = none ↔ c.OVERFLOW = .refuse ∧ ¬ IsWord c.W x := by
  unfold resultWord
  cases c.OVERFLOW <;> simp

end Sys2Proof.Machine
end

