-- ==== Sys2Proof/Laws/State.lean ====
section
/-! SUPPORT. One lemma per field of State per field update, and the fields after taking a fault. -/

namespace Sys2Proof.Machine

@[simp] theorem State.setMem_cfg (s : State) (m : Memory) : (s.setMem m).cfg = s.cfg := rfl
@[simp] theorem State.setMem_mem (s : State) (m : Memory) : (s.setMem m).mem = m := rfl
@[simp] theorem State.setMem_ip (s : State) (m : Memory) : (s.setMem m).ip = s.ip := rfl
@[simp] theorem State.setMem_iq (s : State) (m : Memory) : (s.setMem m).iq = s.iq := rfl
@[simp] theorem State.setMem_oq (s : State) (m : Memory) : (s.setMem m).oq = s.oq := rfl
@[simp] theorem State.setMem_st (s : State) (m : Memory) : (s.setMem m).st = s.st := rfl
@[simp] theorem State.setMem_fr (s : State) (m : Memory) : (s.setMem m).fr = s.fr := rfl

@[simp] theorem State.setIp_cfg (s : State) (p : Nat) : (s.setIp p).cfg = s.cfg := rfl
@[simp] theorem State.setIp_mem (s : State) (p : Nat) : (s.setIp p).mem = s.mem := rfl
@[simp] theorem State.setIp_ip (s : State) (p : Nat) : (s.setIp p).ip = p := rfl
@[simp] theorem State.setIp_iq (s : State) (p : Nat) : (s.setIp p).iq = s.iq := rfl
@[simp] theorem State.setIp_oq (s : State) (p : Nat) : (s.setIp p).oq = s.oq := rfl
@[simp] theorem State.setIp_st (s : State) (p : Nat) : (s.setIp p).st = s.st := rfl
@[simp] theorem State.setIp_fr (s : State) (p : Nat) : (s.setIp p).fr = s.fr := rfl

@[simp] theorem State.setIq_cfg (s : State) (q : List Word) : (s.setIq q).cfg = s.cfg := rfl
@[simp] theorem State.setIq_mem (s : State) (q : List Word) : (s.setIq q).mem = s.mem := rfl
@[simp] theorem State.setIq_ip (s : State) (q : List Word) : (s.setIq q).ip = s.ip := rfl
@[simp] theorem State.setIq_iq (s : State) (q : List Word) : (s.setIq q).iq = q := rfl
@[simp] theorem State.setIq_oq (s : State) (q : List Word) : (s.setIq q).oq = s.oq := rfl
@[simp] theorem State.setIq_st (s : State) (q : List Word) : (s.setIq q).st = s.st := rfl
@[simp] theorem State.setIq_fr (s : State) (q : List Word) : (s.setIq q).fr = s.fr := rfl

@[simp] theorem State.setOq_cfg (s : State) (q : List Word) : (s.setOq q).cfg = s.cfg := rfl
@[simp] theorem State.setOq_mem (s : State) (q : List Word) : (s.setOq q).mem = s.mem := rfl
@[simp] theorem State.setOq_ip (s : State) (q : List Word) : (s.setOq q).ip = s.ip := rfl
@[simp] theorem State.setOq_iq (s : State) (q : List Word) : (s.setOq q).iq = s.iq := rfl
@[simp] theorem State.setOq_oq (s : State) (q : List Word) : (s.setOq q).oq = q := rfl
@[simp] theorem State.setOq_st (s : State) (q : List Word) : (s.setOq q).st = s.st := rfl
@[simp] theorem State.setOq_fr (s : State) (q : List Word) : (s.setOq q).fr = s.fr := rfl

@[simp] theorem State.setSt_cfg (s : State) (x : Status) : (s.setSt x).cfg = s.cfg := rfl
@[simp] theorem State.setSt_mem (s : State) (x : Status) : (s.setSt x).mem = s.mem := rfl
@[simp] theorem State.setSt_ip (s : State) (x : Status) : (s.setSt x).ip = s.ip := rfl
@[simp] theorem State.setSt_iq (s : State) (x : Status) : (s.setSt x).iq = s.iq := rfl
@[simp] theorem State.setSt_oq (s : State) (x : Status) : (s.setSt x).oq = s.oq := rfl
@[simp] theorem State.setSt_st (s : State) (x : Status) : (s.setSt x).st = x := rfl
@[simp] theorem State.setSt_fr (s : State) (x : Status) : (s.setSt x).fr = s.fr := rfl

@[simp] theorem State.setFr_cfg (s : State) (f : FaultRecord) : (s.setFr f).cfg = s.cfg := rfl
@[simp] theorem State.setFr_mem (s : State) (f : FaultRecord) : (s.setFr f).mem = s.mem := rfl
@[simp] theorem State.setFr_ip (s : State) (f : FaultRecord) : (s.setFr f).ip = s.ip := rfl
@[simp] theorem State.setFr_iq (s : State) (f : FaultRecord) : (s.setFr f).iq = s.iq := rfl
@[simp] theorem State.setFr_oq (s : State) (f : FaultRecord) : (s.setFr f).oq = s.oq := rfl
@[simp] theorem State.setFr_st (s : State) (f : FaultRecord) : (s.setFr f).st = s.st := rfl
@[simp] theorem State.setFr_fr (s : State) (f : FaultRecord) : (s.setFr f).fr = f := rfl

@[simp] theorem takeFault_cfg (r : Raise) (s : State) : (takeFault r s).cfg = s.cfg := rfl
@[simp] theorem takeFault_mem (r : Raise) (s : State) : (takeFault r s).mem = s.mem := rfl
@[simp] theorem takeFault_ip (r : Raise) (s : State) : (takeFault r s).ip = s.ip := rfl
@[simp] theorem takeFault_iq (r : Raise) (s : State) : (takeFault r s).iq = s.iq := rfl
@[simp] theorem takeFault_oq (r : Raise) (s : State) : (takeFault r s).oq = s.oq := rfl
@[simp] theorem takeFault_st (r : Raise) (s : State) : (takeFault r s).st = .faulted := rfl
@[simp] theorem takeFault_fr (r : Raise) (s : State) : (takeFault r s).fr = ⟨r.kind, s.ip, s.mem.read s.ip, r.addr⟩ := rfl

/-- Two states with equal fields are equal. -/
theorem State.eq_of_fields {s t : State} (hcfg : s.cfg = t.cfg) (hmem : s.mem = t.mem) (hip : s.ip = t.ip)
    (hiq : s.iq = t.iq) (hoq : s.oq = t.oq) (hst : s.st = t.st) (hfr : s.fr = t.fr) : s = t := by
  cases s; cases t; simp_all

end Sys2Proof.Machine
end

