-- ==== Sys2Proof/Laws/Memory.lean ====
section
/-! SUPPORT. Memory: what a read gives after a write and after a load, that every operation keeps the
canonical form, and that a canonical memory is determined by its reads. -/

namespace Sys2Proof.Machine

/-! ### Listed cells -/

theorem cellsRead_cellsCons (b : Nat) (v : Word) (cs : List Cell) (a : Nat)
    (h : ∀ c ∈ cs, b < c.1) : cellsRead (cellsCons b v cs) a = if a = b then v else cellsRead cs a := by
  unfold cellsCons
  split
  · next hv =>
    split
    · next hab =>
      subst hab hv
      induction cs with
      | nil => rfl
      | cons c cs ih =>
        have := h c (by simp)
        simp [cellsRead, Nat.ne_of_lt this]
        exact ih fun d hd => h d (by simp [hd])
    · rfl
  · simp [cellsRead]

/-- Reading the listed cells after a write (R41, R42). -/
theorem cellsRead_cellsWrite (cs : List Cell) (a b : Nat) (v : Word)
    (h : cs.Pairwise (fun c d => c.1 < d.1)) :
    cellsRead (cellsWrite cs b v) a = if a = b then v else cellsRead cs a := by
  induction cs with
  | nil => simpa [cellsWrite] using cellsRead_cellsCons b v [] a (by simp)
  | cons c cs ih =>
    obtain ⟨x, u⟩ := c
    have hx := (List.pairwise_cons.1 h).1
    unfold cellsWrite
    split
    · next hlt =>
      rw [cellsRead_cellsCons]
      intro c hc
      rcases List.mem_cons.1 hc with rfl | hc
      · exact hlt
      · exact Nat.lt_trans hlt (hx c hc)
    · split
      · next _ heq =>
        subst heq
        rw [cellsRead_cellsCons _ _ _ _ hx]
        simp only [cellsRead]
        split <;> rfl
      · next hlt hne =>
        simp only [cellsRead, ih (List.pairwise_cons.1 h).2]
        split
        · next hax => subst hax; rw [if_neg (fun e => hne e.symm)]
        · rfl

theorem mem_cellsCons {b : Nat} {v : Word} {cs : List Cell} {c : Cell} (h : c ∈ cellsCons b v cs) :
    (c = (b, v) ∧ v ≠ unlistedWord) ∨ c ∈ cs := by
  unfold cellsCons at h
  split at h
  · exact .inr h
  · next hv => exact (List.mem_cons.1 h).imp (⟨·, hv⟩) id

theorem mem_cellsWrite {cs : List Cell} {b : Nat} {v : Word} {c : Cell} (h : c ∈ cellsWrite cs b v) :
    (c = (b, v) ∧ v ≠ unlistedWord) ∨ c ∈ cs := by
  induction cs with
  | nil => exact mem_cellsCons h
  | cons d cs ih =>
    obtain ⟨x, u⟩ := d
    unfold cellsWrite at h
    split at h
    · exact mem_cellsCons h
    · split at h
      · exact (mem_cellsCons h).imp id (List.mem_cons_of_mem _)
      · rcases List.mem_cons.1 h with rfl | h
        · exact .inr (by simp)
        · exact (ih h).imp id (List.mem_cons_of_mem _)

theorem cellsCons_sorted {b : Nat} {v : Word} {cs : List Cell} (hs : cs.Pairwise (fun c d => c.1 < d.1))
    (h : ∀ c ∈ cs, b < c.1) : (cellsCons b v cs).Pairwise (fun c d => c.1 < d.1) := by
  unfold cellsCons
  split
  · exact hs
  · exact List.pairwise_cons.2 ⟨h, hs⟩

theorem cellsWrite_sorted {cs : List Cell} (b : Nat) (v : Word) (h : cs.Pairwise (fun c d => c.1 < d.1)) :
    (cellsWrite cs b v).Pairwise (fun c d => c.1 < d.1) := by
  induction cs with
  | nil => exact cellsCons_sorted h (by simp)
  | cons d cs ih =>
    obtain ⟨x, u⟩ := d
    obtain ⟨hx, hcs⟩ := List.pairwise_cons.1 h
    unfold cellsWrite
    split
    · next hlt =>
      refine cellsCons_sorted h fun c hc => ?_
      rcases List.mem_cons.1 hc with rfl | hc
      · exact hlt
      · exact Nat.lt_trans hlt (hx c hc)
    · split
      · next _ heq => subst heq; exact cellsCons_sorted hcs hx
      · next hlt hne =>
        refine List.pairwise_cons.2 ⟨fun c hc => ?_, ih hcs⟩
        rcases mem_cellsWrite hc with ⟨rfl, -⟩ | hc
        · exact Nat.lt_of_le_of_ne (Nat.le_of_not_lt hlt) (Ne.symm hne)
        · exact hx c hc

/-- Canonical cells with equal reads are equal. -/
theorem cells_ext {cs ds : List Cell} (hc : cs.Pairwise (fun c d => c.1 < d.1))
    (hd : ds.Pairwise (fun c d => c.1 < d.1)) (hc0 : ∀ c ∈ cs, c.2 ≠ unlistedWord)
    (hd0 : ∀ c ∈ ds, c.2 ≠ unlistedWord) (h : ∀ a, cellsRead cs a = cellsRead ds a) : cs = ds := by
  have below : ∀ (es : List Cell) (a : Nat), (∀ c ∈ es, a < c.1) → cellsRead es a = unlistedWord := by
    intro es a hes
    induction es with
    | nil => rfl
    | cons e es ih =>
      simp [cellsRead, Nat.ne_of_lt (hes e (by simp)), ih fun c hc => hes c (by simp [hc])]
  induction cs generalizing ds with
  | nil =>
    cases ds with
    | nil => rfl
    | cons d ds => exact absurd (by simpa [cellsRead] using (h d.1).symm) (hd0 d (by simp))
  | cons c cs ih =>
    cases ds with
    | nil => exact absurd (by simpa [cellsRead] using h c.1) (hc0 c (by simp))
    | cons d ds =>
      obtain ⟨x, u⟩ := c
      obtain ⟨y, w⟩ := d
      obtain ⟨hx, hcs⟩ := List.pairwise_cons.1 hc
      obtain ⟨hy, hds⟩ := List.pairwise_cons.1 hd
      have hxy : x = y := by
        rcases Nat.lt_trichotomy x y with hlt | heq | hlt
        · have e := below ((y, w) :: ds) x fun c hc => by
            rcases List.mem_cons.1 hc with rfl | hc
            · exact hlt
            · exact Nat.lt_trans hlt (hy c hc)
          exact absurd (by rw [← e, ← h x]; simp [cellsRead]) (hc0 (x, u) (by simp))
        · exact heq
        · have e := below ((x, u) :: cs) y fun c hc => by
            rcases List.mem_cons.1 hc with rfl | hc
            · exact hlt
            · exact Nat.lt_trans hlt (hx c hc)
          exact absurd (by rw [← e, h y]; simp [cellsRead]) (hd0 (y, w) (by simp))
      subst hxy
      have huw : u = w := by simpa [cellsRead] using h x
      subst huw
      congr 1
      refine ih hcs hds (fun c hc => hc0 c (by simp [hc])) (fun c hc => hd0 c (by simp [hc])) fun a => ?_
      by_cases ha : a = x
      · subst ha; rw [below cs a hx, below ds a hy]
      · simpa [cellsRead, ha] using h a

/-! ### The memory of a program -/

theorem mem_cellsOfWords {a : Nat} {ws : List Word} {c : Cell} (h : c ∈ cellsOfWords a ws) :
    a ≤ c.1 ∧ c.1 < a + ws.length ∧ c.2 ≠ unlistedWord ∧ c.2 ∈ ws := by
  induction ws generalizing a with
  | nil => simp [cellsOfWords] at h
  | cons v vs ih =>
    rcases mem_cellsCons h with ⟨rfl, hv⟩ | h
    · exact ⟨Nat.le_refl _, by simp, hv, by simp⟩
    · obtain ⟨h1, h2, h3, h4⟩ := ih h
      exact ⟨by omega, by simp; omega, h3, by simp [h4]⟩

theorem cellsOfWords_sorted (a : Nat) (ws : List Word) :
    (cellsOfWords a ws).Pairwise (fun c d => c.1 < d.1) := by
  induction ws generalizing a with
  | nil => exact List.Pairwise.nil
  | cons v vs ih => exact cellsCons_sorted (ih _) fun c hc => (mem_cellsOfWords hc).1

theorem cellsRead_cellsOfWords (a : Nat) (ws : List Word) (i : Nat) (h : i < ws.length) :
    cellsRead (cellsOfWords a ws) (a + i) = ws[i] := by
  induction ws generalizing a i with
  | nil => simp at h
  | cons v vs ih =>
    rw [cellsOfWords, cellsRead_cellsCons _ _ _ _ fun c hc => (mem_cellsOfWords hc).1]
    cases i with
    | zero => simp
    | succ i =>
      rw [if_neg (by omega), show a + (i + 1) = a + 1 + i by omega, ih (a + 1) i (by simpa using h)]
      simp

/-! ### Reads and writes -/

theorem Memory.read_eq_some {m : Memory} {a : Int} {v : Word} :
    m.read a = some v ↔ m.InBounds a ∧ cellsRead m.cells a.toNat = v := by
  by_cases h : m.InBounds a
  · rw [Memory.read, if_pos h, Option.some.injEq, and_iff_right h]
  · rw [Memory.read, if_neg h]
    exact ⟨fun e => (nomatch e), fun e => absurd e.1 h⟩

theorem Memory.read_eq_none {m : Memory} {a : Int} : m.read a = none ↔ ¬ m.InBounds a := by
  by_cases h : m.InBounds a
  · rw [Memory.read, if_pos h]
    exact ⟨fun e => (nomatch e), fun e => absurd h e⟩
  · rw [Memory.read, if_neg h]
    exact ⟨fun _ => h, fun _ => rfl⟩

/-- A read succeeds exactly in bounds (R41). -/
theorem Memory.read_isSome {m : Memory} {a : Int} : (m.read a).isSome ↔ m.InBounds a := by
  by_cases h : m.InBounds a
  · rw [Memory.read, if_pos h]
    exact ⟨fun _ => h, fun _ => rfl⟩
  · rw [Memory.read, if_neg h]
    exact ⟨fun e => (nomatch e), fun e => absurd e h⟩

theorem Memory.write_eq_some {m n : Memory} {a : Int} {v : Word} :
    m.write a v = some n ↔ m.InBounds a ∧ n = ⟨m.size, cellsWrite m.cells a.toNat v⟩ := by
  by_cases h : m.InBounds a
  · rw [Memory.write, if_pos h, Option.some.injEq, and_iff_right h, eq_comm]
  · rw [Memory.write, if_neg h]
    exact ⟨fun e => (nomatch e), fun e => absurd e.1 h⟩

theorem Memory.write_size {m n : Memory} {a : Int} {v : Word} (h : m.write a v = some n) :
    n.size = m.size := by
  rw [(Memory.write_eq_some.1 h).2]

/-- Read after write: the written address gives the written word, every other address what it gave. -/
theorem Memory.read_write {m n : Memory} {a : Int} {v : Word}
    (hs : m.cells.Pairwise (fun c d => c.1 < d.1)) (h : m.write a v = some n) (b : Int) :
    n.read b = if b = a then some v else m.read b := by
  obtain ⟨ha, rfl⟩ := Memory.write_eq_some.1 h
  unfold Memory.read
  simp only [cellsRead_cellsWrite _ _ _ _ hs]
  by_cases hb : m.InBounds b
  · rw [if_pos hb, if_pos hb]
    by_cases hba : b = a
    · simp [hba]
    · rw [if_neg hba, if_neg]
      intro e
      exact hba (by rw [← Int.toNat_of_nonneg hb.1, ← Int.toNat_of_nonneg ha.1, e])
  · rw [if_neg hb, if_neg hb, if_neg]
    rintro rfl
    exact hb ha

/-! ### The canonical form -/

theorem Memory.empty_wf : Memory.empty.wf := by decide

theorem Memory.write_wf {m n : Memory} {a : Int} {v : Word} (hm : m.wf) (h : m.write a v = some n) : n.wf := by
  obtain ⟨ha, rfl⟩ := Memory.write_eq_some.1 h
  obtain ⟨hs, h0, hb⟩ := hm
  refine ⟨cellsWrite_sorted _ _ hs, fun c hc => ?_, fun c hc => ?_⟩ <;>
    rcases mem_cellsWrite hc with ⟨rfl, hv⟩ | hc
  · exact hv
  · exact h0 c hc
  · have := ha.1; have := ha.2; simp only; omega
  · exact hb c hc

theorem Memory.ofWords_wf (ws : List Word) : (Memory.ofWords ws).wf :=
  ⟨cellsOfWords_sorted 0 ws, fun _ hc => (mem_cellsOfWords hc).2.2.1, fun _ hc => by
    have := (mem_cellsOfWords hc).2.1
    simpa [Memory.ofWords] using this⟩

theorem Memory.place_wf {m : Memory} (hm : m.wf) (a : Nat) (ws : List Word) : (m.place a ws).wf := by
  induction ws generalizing m a with
  | nil => exact hm
  | cons v vs ih =>
    obtain ⟨hs, h0, hb⟩ := hm
    refine ih ⟨cellsWrite_sorted _ _ hs, fun c hc => ?_, fun c hc => ?_⟩ _ <;>
      rcases mem_cellsWrite hc with ⟨rfl, hv⟩ | hc
    · exact hv
    · exact h0 c hc
    · simp only; omega
    · have := hb c hc; simp only; omega

/-- A loaded program reads as its words (70_reset_and_hazards.md R231). -/
theorem Memory.read_ofWords (ws : List Word) (i : Nat) : (Memory.ofWords ws).read i = ws[i]? := by
  by_cases h : i < ws.length
  · rw [List.getElem?_eq_getElem h]
    refine Memory.read_eq_some.2 ⟨⟨by omega, by simpa [Memory.ofWords] using h⟩, ?_⟩
    simpa [Memory.ofWords] using cellsRead_cellsOfWords 0 ws i h
  · rw [List.getElem?_eq_none (by omega)]
    exact Memory.read_eq_none.2 fun hb => h (by simpa [Memory.ofWords] using hb.2)

theorem Memory.toWords_length (m : Memory) : m.toWords.length = m.size := by simp [Memory.toWords]

theorem Memory.toWords_getElem? (m : Memory) (i : Nat) : m.toWords[i]? = m.read i := by
  unfold Memory.toWords Memory.read
  by_cases h : i < m.size
  · simp [h]
  · simp [h]

/-- Every read gives a word when every listed cell holds one. -/
theorem Memory.read_isWord {m : Memory} {W : Nat} (h : ∀ c ∈ m.cells, IsWord W c.2) (h0 : IsWord W unlistedWord)
    {a : Int} {v : Word} (hr : m.read a = some v) : IsWord W v := by
  obtain ⟨-, rfl⟩ := Memory.read_eq_some.1 hr
  generalize m.cells = cs at h
  induction cs with
  | nil => exact h0
  | cons c cs ih =>
    unfold cellsRead
    split
    · exact h c (by simp)
    · exact ih fun d hd => h d (by simp [hd])

end Sys2Proof.Machine
end

