-- ==== Sys2Proof/Laws/Resolver.lean ====
section
/-! SUPPORT. What the checked accesses, the resolver and the queue and ip operations can do, each said once:
the value they answer and the fault they raise, in the terms of `Safety`. -/

namespace Sys2Proof.Machine

/-! ### Checked accesses -/

theorem memRead_ok {s : State} {a : Int} {v : Int} : memRead s a = .ok v ↔ s.mem.read a = some v := by
  unfold memRead
  cases s.mem.read a <;> simp

theorem memRead_error {s : State} {a : Int} {r : Raise} :
    memRead s a = .error r ↔ s.mem.read a = none ∧ r = .addressOutOfBounds a := by
  unfold memRead
  cases s.mem.read a <;> simp [eq_comm]

theorem memWrite_ok {s t : State} {a : Int} {v : Int} :
    memWrite s a v = .ok t ↔ ∃ m, s.mem.write a v = some m ∧ t = s.setMem m := by
  unfold memWrite
  cases s.mem.write a v <;> simp [eq_comm]

theorem checkAddress_ok {s : State} {a d : Int} : checkAddress s a = .ok d ↔ s.mem.InBounds a ∧ d = a := by
  unfold checkAddress
  by_cases h : s.mem.InBounds a
  · rw [if_pos h, Except.ok.injEq, and_iff_right h, eq_comm]
  · rw [if_neg h]; exact ⟨fun e => (nomatch e), fun e => absurd e.1 h⟩

theorem checkAddress_error {s : State} {a : Int} {r : Raise} :
    checkAddress s a = .error r ↔ ¬ s.mem.InBounds a ∧ r = .addressOutOfBounds a := by
  unfold checkAddress
  by_cases h : s.mem.InBounds a
  · rw [if_pos h]; exact ⟨fun e => (nomatch e), fun e => absurd h e.1⟩
  · rw [if_neg h, Except.error.injEq, and_iff_right h, eq_comm]

/-! ### Modes and single parameters -/

theorem modeOf_zero : modeOf 0 = .ok .position := rfl
theorem modeOf_one : modeOf 1 = .ok .immediate := rfl

theorem modeOf_illegal {d : Nat} (h : ¬ d ≤ 1) : modeOf d = .error .invalidMode := by
  unfold modeOf
  split <;> first | rfl | omega

/-- A used mode digit selects a mode, or is 2 or more and raises InvalidMode. -/
theorem modeOf_cases (d : Nat) :
    (d = 0 ∧ modeOf d = .ok .position) ∨ (d = 1 ∧ modeOf d = .ok .immediate) ∨
      (¬ d ≤ 1 ∧ modeOf d = .error .invalidMode) := by
  rcases d with _ | _ | d
  · exact .inl ⟨rfl, rfl⟩
  · exact .inr (.inl ⟨rfl, rfl⟩)
  · exact .inr (.inr ⟨by omega, rfl⟩)

/-- A read parameter gives its operand, or raises its fault (R73, R202 b and c). -/
theorem readParam_cases (s : State) (k : Nat) {d : Nat} {m : Mode} (hm : modeOf d = .ok m) :
    (∃ v, readParam s k m = .ok v ∧ IsOperand s k d v ∧ operandAt s k d = some v ∧ paramFault s k d = none) ∨
      (∃ a, readParam s k m = .error (.addressOutOfBounds a) ∧ paramFault s k d = some a) := by
  rcases modeOf_cases d with ⟨rfl, h⟩ | ⟨rfl, h⟩ | ⟨-, h⟩ <;> rw [h] at hm <;> cases hm
  · unfold readParam IsOperand paramFault operandAt memRead
    cases hs : s.mem.read (slot s k) with
    | none => exact .inr ⟨_, rfl, rfl⟩
    | some a =>
      cases ha : s.mem.read a with
      | none => exact .inr ⟨a, by simp [ha], by simp [Memory.read_eq_none.1 ha]⟩
      | some v =>
        have hb := (Memory.read_eq_some.1 ha).1
        exact .inl ⟨v, by simp [ha], by simp [ha], by simp [ha], by simp [hb]⟩
  · unfold readParam IsOperand paramFault operandAt memRead
    cases hs : s.mem.read (slot s k) with
    | none => exact .inr ⟨_, rfl, rfl⟩
    | some a => exact .inl ⟨a, by simp, by simp, by simp, by simp⟩

/-- A write parameter gives its destination, or raises its fault (R74, R202 b and d). -/
theorem writeAddr_cases (s : State) (k : Nat) {d : Nat} {m : Mode} (hm : modeOf d = .ok m) :
    (∃ x, writeAddr s k m = .ok x ∧ IsDestination s k d x ∧ paramFault s k d = none) ∨
      (∃ a, writeAddr s k m = .error (.addressOutOfBounds a) ∧ paramFault s k d = some a) := by
  rcases modeOf_cases d with ⟨rfl, h⟩ | ⟨rfl, h⟩ | ⟨-, h⟩ <;> rw [h] at hm <;> cases hm
  · unfold writeAddr IsDestination paramFault memRead
    cases hs : s.mem.read (slot s k) with
    | none => exact .inr ⟨_, rfl, rfl⟩
    | some a =>
      by_cases ha : s.mem.InBounds a
      · exact .inl ⟨a, checkAddress_ok.2 ⟨ha, rfl⟩, ⟨ha, .inl ⟨rfl, rfl⟩⟩, if_neg fun h => h.2 ha⟩
      · exact .inr ⟨a, checkAddress_error.2 ⟨ha, rfl⟩, by simp [ha]⟩
  · unfold writeAddr IsDestination paramFault
    cases hs : s.mem.read (slot s k) with
    | none => exact .inr ⟨_, checkAddress_error.2 ⟨Memory.read_eq_none.1 hs, rfl⟩, rfl⟩
    | some a =>
      have hb := (Memory.read_eq_some.1 hs).1
      exact .inl ⟨_, checkAddress_ok.2 ⟨hb, rfl⟩, ⟨hb, .inr ⟨rfl, rfl⟩⟩, by simp⟩

/-- An operand is one value. -/
theorem IsOperand.unique {s : State} {k d : Nat} {v w : Int} (h : IsOperand s k d v) (h' : IsOperand s k d w) :
    v = w := by
  rcases h with ⟨rfl, h⟩ | ⟨rfl, h⟩ <;> rcases h' with ⟨e, h'⟩ | ⟨e, h'⟩ <;> simp_all

/-- A destination is one address. -/
theorem IsDestination.unique {s : State} {k d : Nat} {x y : Int} (h : IsDestination s k d x)
    (h' : IsDestination s k d y) : x = y := by
  rcases h.2 with ⟨rfl, h⟩ | ⟨rfl, h⟩ <;> rcases h'.2 with ⟨e, h'⟩ | ⟨e, h'⟩ <;> simp_all

/-- A slot whose parameter has no fault lies inside memory. -/
theorem slot_inBounds {s : State} {k d : Nat} (h : paramFault s k d = none) : s.mem.InBounds (slot s k) := by
  unfold paramFault at h
  split at h
  · simp at h
  · next a hs => exact (Memory.read_eq_some.1 hs).1

/-- An operand has a legal mode digit and no fault. -/
theorem IsOperand.spec {s : State} {k d : Nat} {v : Int} (h : IsOperand s k d v) :
    d ≤ 1 ∧ operandAt s k d = some v ∧ paramFault s k d = none := by
  rcases h with ⟨rfl, h⟩ | ⟨rfl, h⟩
  · refine ⟨by omega, by simp [operandAt, h], ?_⟩
    cases hs : s.mem.read (slot s k) with
    | none => simp [hs] at h
    | some a =>
      simp [hs] at h
      have := (Memory.read_eq_some.1 h).1
      simp only [paramFault, hs]
      rw [if_neg]
      exact fun x => x.2 this
  · exact ⟨by omega, by simp [operandAt, h], by simp [paramFault, h]⟩

/-! ### All parameters of an instruction -/

/-- The three answers of `resolveReadReadWrite`. -/
theorem resolveReadReadWrite_cases (m1 m2 m3 : Nat) (s : State) :
    (∃ a b d, resolveReadReadWrite m1 m2 m3 s = .ok (a, b, d) ∧ (m1 ≤ 1 ∧ m2 ≤ 1 ∧ m3 ≤ 1) ∧
        firstParamFault s 1 [m1, m2, m3] = none ∧ IsOperand s 1 m1 a ∧ IsOperand s 2 m2 b ∧ IsDestination s 3 m3 d ∧
        s.ip + 4 ≤ s.mem.size) ∨
      (∃ a, resolveReadReadWrite m1 m2 m3 s = .error (.addressOutOfBounds a) ∧ (m1 ≤ 1 ∧ m2 ≤ 1 ∧ m3 ≤ 1) ∧
        firstParamFault s 1 [m1, m2, m3] = some a) ∨
      (resolveReadReadWrite m1 m2 m3 s = .error .invalidMode ∧ ¬ (m1 ≤ 1 ∧ m2 ≤ 1 ∧ m3 ≤ 1)) := by
  unfold resolveReadReadWrite
  by_cases hl : m1 ≤ 1 ∧ m2 ≤ 1 ∧ m3 ≤ 1
  · have mode : ∀ d, d ≤ 1 → ∃ k, modeOf d = .ok k := fun d hd => by
      rcases modeOf_cases d with h | h | h
      exacts [⟨_, h.2⟩, ⟨_, h.2⟩, absurd hd h.1]
    obtain ⟨k1, h1⟩ := mode m1 hl.1
    obtain ⟨k2, h2⟩ := mode m2 hl.2.1
    obtain ⟨k3, h3⟩ := mode m3 hl.2.2
    rcases readParam_cases s 1 h1 with ⟨a, ea, ha, -, fa⟩ | ⟨x, ea, fa⟩
    · rcases readParam_cases s 2 h2 with ⟨b, eb, hb, -, fb⟩ | ⟨x, eb, fb⟩
      · rcases writeAddr_cases s 3 h3 with ⟨d, ed, hd, fd⟩ | ⟨x, ed, fd⟩
        · refine .inl ⟨a, b, d, ?_, hl, ?_, ha, hb, hd, ?_⟩
          · simp [h1, h2, h3, ea, eb, ed, bind, Except.bind, pure, Except.pure]
          · simp [firstParamFault, fa, fb, fd]
          · have := (slot_inBounds fd).2
            unfold slot at this
            omega
        · refine .inr (.inl ⟨x, ?_, hl, ?_⟩)
          · simp [h1, h2, h3, ea, eb, ed, bind, Except.bind]
          · simp [firstParamFault, fa, fb, fd]
      · refine .inr (.inl ⟨x, ?_, hl, ?_⟩)
        · simp [h1, h2, h3, ea, eb, bind, Except.bind]
        · simp [firstParamFault, fa, fb]
    · refine .inr (.inl ⟨x, ?_, hl, ?_⟩)
      · simp [h1, h2, h3, ea, bind, Except.bind]
      · simp [firstParamFault, fa]
  · refine .inr (.inr ⟨?_, hl⟩)
    rcases modeOf_cases m1 with h1 | h1 | h1 <;> rcases modeOf_cases m2 with h2 | h2 | h2 <;>
      rcases modeOf_cases m3 with h3 | h3 | h3 <;> simp [h1.2, h2.2, h3.2, bind, Except.bind] <;> omega

/-- The three answers of `resolveReadRead`. -/
theorem resolveReadRead_cases (m1 m2 : Nat) (s : State) :
    (∃ c t, resolveReadRead m1 m2 s = .ok (c, t) ∧ (m1 ≤ 1 ∧ m2 ≤ 1) ∧ firstParamFault s 1 [m1, m2] = none ∧
        IsOperand s 1 m1 c ∧ IsOperand s 2 m2 t ∧ operandAt s 1 m1 = some c ∧ operandAt s 2 m2 = some t ∧
        s.ip + 3 ≤ s.mem.size) ∨
      (∃ a, resolveReadRead m1 m2 s = .error (.addressOutOfBounds a) ∧ (m1 ≤ 1 ∧ m2 ≤ 1) ∧
        firstParamFault s 1 [m1, m2] = some a) ∨
      (resolveReadRead m1 m2 s = .error .invalidMode ∧ ¬ (m1 ≤ 1 ∧ m2 ≤ 1)) := by
  unfold resolveReadRead
  by_cases hl : m1 ≤ 1 ∧ m2 ≤ 1
  · have mode : ∀ d, d ≤ 1 → ∃ k, modeOf d = .ok k := fun d hd => by
      rcases modeOf_cases d with h | h | h
      exacts [⟨_, h.2⟩, ⟨_, h.2⟩, absurd hd h.1]
    obtain ⟨k1, h1⟩ := mode m1 hl.1
    obtain ⟨k2, h2⟩ := mode m2 hl.2
    rcases readParam_cases s 1 h1 with ⟨a, ea, ha, oa, fa⟩ | ⟨x, ea, fa⟩
    · rcases readParam_cases s 2 h2 with ⟨b, eb, hb, ob, fb⟩ | ⟨x, eb, fb⟩
      · refine .inl ⟨a, b, ?_, hl, ?_, ha, hb, oa, ob, ?_⟩
        · simp [h1, h2, ea, eb, bind, Except.bind, pure, Except.pure]
        · simp [firstParamFault, fa, fb]
        · have := (slot_inBounds fb).2
          unfold slot at this
          omega
      · refine .inr (.inl ⟨x, ?_, hl, ?_⟩)
        · simp [h1, h2, ea, eb, bind, Except.bind]
        · simp [firstParamFault, fa, fb]
    · refine .inr (.inl ⟨x, ?_, hl, ?_⟩)
      · simp [h1, h2, ea, bind, Except.bind]
      · simp [firstParamFault, fa]
  · refine .inr (.inr ⟨?_, hl⟩)
    rcases modeOf_cases m1 with h1 | h1 | h1 <;> rcases modeOf_cases m2 with h2 | h2 | h2 <;>
      simp [h1.2, h2.2, bind, Except.bind] <;> omega

/-- The three answers of `resolveRead`. -/
theorem resolveRead_cases (m1 : Nat) (s : State) :
    (∃ v, resolveRead m1 s = .ok v ∧ m1 ≤ 1 ∧ firstParamFault s 1 [m1] = none ∧ IsOperand s 1 m1 v ∧
        s.ip + 2 ≤ s.mem.size) ∨
      (∃ a, resolveRead m1 s = .error (.addressOutOfBounds a) ∧ m1 ≤ 1 ∧ firstParamFault s 1 [m1] = some a) ∨
      (resolveRead m1 s = .error .invalidMode ∧ ¬ m1 ≤ 1) := by
  unfold resolveRead
  rcases modeOf_cases m1 with ⟨h, e⟩ | ⟨h, e⟩ | ⟨h, e⟩
  · rcases readParam_cases s 1 e with ⟨v, ev, hv, -, fv⟩ | ⟨x, ev, fv⟩
    · refine .inl ⟨v, by simp [e, ev, bind, Except.bind], by omega, by simp [firstParamFault, fv], hv, ?_⟩
      have := (slot_inBounds fv).2
      unfold slot at this
      omega
    · exact .inr (.inl ⟨x, by simp [e, ev, bind, Except.bind], by omega, by simp [firstParamFault, fv]⟩)
  · rcases readParam_cases s 1 e with ⟨v, ev, hv, -, fv⟩ | ⟨x, ev, fv⟩
    · refine .inl ⟨v, by simp [e, ev, bind, Except.bind], by omega, by simp [firstParamFault, fv], hv, ?_⟩
      have := (slot_inBounds fv).2
      unfold slot at this
      omega
    · exact .inr (.inl ⟨x, by simp [e, ev, bind, Except.bind], by omega, by simp [firstParamFault, fv]⟩)
  · exact .inr (.inr ⟨by simp [e, bind, Except.bind], h⟩)

/-- The three answers of `resolveWrite`. -/
theorem resolveWrite_cases (m1 : Nat) (s : State) :
    (∃ d, resolveWrite m1 s = .ok d ∧ m1 ≤ 1 ∧ firstParamFault s 1 [m1] = none ∧ IsDestination s 1 m1 d ∧
        s.ip + 2 ≤ s.mem.size) ∨
      (∃ a, resolveWrite m1 s = .error (.addressOutOfBounds a) ∧ m1 ≤ 1 ∧ firstParamFault s 1 [m1] = some a) ∨
      (resolveWrite m1 s = .error .invalidMode ∧ ¬ m1 ≤ 1) := by
  unfold resolveWrite
  rcases modeOf_cases m1 with ⟨h, e⟩ | ⟨h, e⟩ | ⟨h, e⟩
  · rcases writeAddr_cases s 1 e with ⟨v, ev, hv, fv⟩ | ⟨x, ev, fv⟩
    · refine .inl ⟨v, by simp [e, ev, bind, Except.bind], by omega, by simp [firstParamFault, fv], hv, ?_⟩
      have := (slot_inBounds fv).2
      unfold slot at this
      omega
    · exact .inr (.inl ⟨x, by simp [e, ev, bind, Except.bind], by omega, by simp [firstParamFault, fv]⟩)
  · rcases writeAddr_cases s 1 e with ⟨v, ev, hv, fv⟩ | ⟨x, ev, fv⟩
    · refine .inl ⟨v, by simp [e, ev, bind, Except.bind], by omega, by simp [firstParamFault, fv], hv, ?_⟩
      have := (slot_inBounds fv).2
      unfold slot at this
      omega
    · exact .inr (.inl ⟨x, by simp [e, ev, bind, Except.bind], by omega, by simp [firstParamFault, fv]⟩)
  · exact .inr (.inr ⟨by simp [e, bind, Except.bind], h⟩)

/-! ### The queues and ip -/

@[simp] theorem inPop_mem (s : State) : (inPop s).2.mem = s.mem := by unfold inPop; split <;> rfl
@[simp] theorem inPop_ip (s : State) : (inPop s).2.ip = s.ip := by unfold inPop; split <;> rfl
@[simp] theorem inPop_oq (s : State) : (inPop s).2.oq = s.oq := by unfold inPop; split <;> rfl
@[simp] theorem inPop_st (s : State) : (inPop s).2.st = s.st := by unfold inPop; split <;> rfl
@[simp] theorem inPop_fr (s : State) : (inPop s).2.fr = s.fr := by unfold inPop; split <;> rfl
@[simp] theorem inPop_cfg (s : State) : (inPop s).2.cfg = s.cfg := by unfold inPop; split <;> rfl

/-- A pop leaves the tail, which is empty for an empty queue (R112). -/
theorem inPop_iq (s : State) : (inPop s).2.iq = s.iq.tail := by
  unfold inPop
  split <;> simp_all

/-- A pop answers the head, or 0 (R112). -/
theorem inPop_value (s : State) : (inPop s).1 = s.iq.headD 0 := by
  unfold inPop
  split <;> simp_all

theorem outPush_eq_some {v : Int} {s t : State} :
    outPush v s = some t ↔ HasOutputRoom s ∧ t = s.setOq (s.oq ++ [v]) := by
  by_cases h : HasOutputRoom s
  · rw [outPush, if_pos h, Option.some.injEq, and_iff_right h, eq_comm]
  · rw [outPush, if_neg h]
    exact ⟨fun e => (nomatch e), fun e => absurd e.1 h⟩

theorem outPush_eq_none {v : Int} {s : State} : outPush v s = none ↔ ¬ HasOutputRoom s := by
  by_cases h : HasOutputRoom s
  · rw [outPush, if_pos h]
    exact ⟨fun e => (nomatch e), fun e => absurd h e⟩
  · rw [outPush, if_neg h]
    exact ⟨fun _ => h, fun _ => rfl⟩

/-- The two answers of the next-pointer check (R110). -/
theorem setNext_cases (next : Int) (s : State) :
    ((0 ≤ next ∧ next ≤ s.mem.size) ∧ setNext next s = .next (s.setIp next.toNat)) ∨
      (¬ (0 ≤ next ∧ next ≤ s.mem.size) ∧ setNext next s = .next (takeFault (.addressOutOfBounds next) s)) := by
  by_cases h : 0 ≤ next ∧ next ≤ s.mem.size
  · exact .inl ⟨h, by rw [setNext, if_pos h]⟩
  · exact .inr ⟨h, by rw [setNext, if_neg h]⟩

/-- A stride inside memory never fails the next-pointer check (R111). -/
theorem setNext_stride {s : State} {p n : Nat} (h : p + n ≤ s.mem.size) :
    setNext ((p : Int) + n) s = .next (s.setIp (p + n)) := by
  rcases setNext_cases ((p : Int) + n) s with ⟨-, e⟩ | ⟨hn, -⟩
  · rw [e]; congr 1
  · omega

/-- Storing to a checked destination and going on (R104, R107, R109). -/
theorem storeAndAdvance_eq {s : State} {d : Int} {n : Nat} (v : Int) (hd : s.mem.InBounds d)
    (hn : s.ip + n ≤ s.mem.size) :
    ∃ m, s.mem.write d v = some m ∧ storeAndAdvance d v n s = .next ((s.setMem m).setIp (s.ip + n)) := by
  obtain ⟨m, hm⟩ : ∃ m, s.mem.write d v = some m := ⟨_, Memory.write_eq_some.2 ⟨hd, rfl⟩⟩
  refine ⟨m, hm, ?_⟩
  rw [storeAndAdvance, memWrite_ok.2 ⟨m, hm, rfl⟩]
  exact setNext_stride (by simpa [Memory.write_size hm] using hn)

end Sys2Proof.Machine
end

