-- ==== Sys2Proof/Laws/Exec.lean ====
section
/-! SUPPORT. What an instruction and a step can do, said once: `exec_cases` for an instruction, `step_cases` for
a step. -/

namespace Sys2Proof.Machine

/-- t is what instruction i leaves when it completes from s. -/
inductive Completes (s : State) : Instr → State → Prop
  /-- add, multiply, less-than, equals -/
  | store {i : Instr} {d : Int} {v : Int} {m : Memory} (hi : i.roles = [.read, .read, .write])
      (hd : storedAddress s i = some d) (hm : s.mem.write d v = some m) (hv : 2 ≤ s.cfg.W → IsWord s.cfg.W v)
      (hn : s.ip + 4 ≤ s.mem.size) : Completes s i ((s.setMem m).setIp (s.ip + 4))
  | input {m1 : Nat} {d : Int} {m : Memory} (hd : storedAddress s (.readInput m1) = some d)
      (hm : s.mem.write d (s.iq.headD 0) = some m) (hn : s.ip + 2 ≤ s.mem.size) :
      Completes s (.readInput m1) (((s.setIq s.iq.tail).setMem m).setIp (s.ip + 2))
  | output {m1 : Nat} {v : Int} (hv : IsOperand s 1 m1 v) (hr : HasOutputRoom s) (hn : s.ip + 2 ≤ s.mem.size) :
      Completes s (.writeOutput m1) ((s.setOq (s.oq ++ [v])).setIp (s.ip + 2))
  | jump {i : Instr} {p : Nat} (hi : i.roles = [.read, .read]) (hp : p ≤ s.mem.size) : Completes s i (s.setIp p)
  | halt : Completes s .halt (s.setSt .halted)

/-- The four ends of an instruction. -/
inductive ExecEnd (s : State) (i : Instr) : Host.Outcome State Fault Refusal → Prop
  | fault {r : Raise} (hf : instrFault s i = some r) : ExecEnd s i (.next (takeFault r s))
  | done {t : State} (hf : instrFault s i = none) (hc : Completes s i t) : ExecEnd s i (.next t)
  | stuck {m1 : Nat} {v : Int} (hi : i = .writeOutput m1) (hf : instrFault s i = none) (hv : IsOperand s 1 m1 v)
      (hr : ¬ HasOutputRoom s) : ExecEnd s i (.fault .outputLogFull)
  | refused {m1 m2 m3 : Nat} {a b : Int} (hf : instrFault s i = none) (ha : IsOperand s 1 m1 a)
      (hb : IsOperand s 2 m2 b) (ho : s.cfg.OVERFLOW = .refuse)
      (hx : i = .add m1 m2 m3 ∧ ¬ IsWord s.cfg.W (a + b) ∨ i = .multiply m1 m2 m3 ∧ ¬ IsWord s.cfg.W (a * b)) :
      ExecEnd s i (.refused .resultOutOfRange)

theorem inPop_snd (s : State) : (inPop s).2 = s.setIq s.iq.tail :=
  State.eq_of_fields (by simp) (by simp) (by simp) (by simp [inPop_iq]) (by simp) (by simp) (by simp)

/-- Storing to the resolved destination of a three-parameter instruction completes it. -/
theorem completes_store {s : State} {i : Instr} {d : Int} {v : Int} (hi : i.roles = [.read, .read, .write])
    (hd : storedAddress s i = some d) (hb : s.mem.InBounds d) (hv : 2 ≤ s.cfg.W → IsWord s.cfg.W v)
    (hn : s.ip + 4 ≤ s.mem.size) : ∃ t, storeAndAdvance d v 4 s = .next t ∧ Completes s i t := by
  obtain ⟨m, hm, e⟩ := storeAndAdvance_eq v hb hn
  exact ⟨_, e, .store hi hd hm hv hn⟩

theorem exec_cases_arithmetic {s : State} {i : Instr} {m1 m2 m3 : Nat} (f : Int → Int → Int)
    (hi : i.roles = [.read, .read, .write]) (hm : i.modeDigits = [m1, m2, m3])
    (hd : storedAddress s i = (resolveReadReadWrite m1 m2 m3 s).toOption.map (·.2.2))
    (hj : nextPointerFault s i = none)
    (ho : ∀ a b, ¬ IsWord s.cfg.W (f a b) →
      i = .add m1 m2 m3 ∧ ¬ IsWord s.cfg.W (a + b) ∨ i = .multiply m1 m2 m3 ∧ ¬ IsWord s.cfg.W (a * b))
    (he : exec i s = match resolveReadReadWrite m1 m2 m3 s with
      | .error r => .next (takeFault r s)
      | .ok (a, b, d) => storeResult (f a b) d s) : ExecEnd s i (exec i s) := by
  rw [he]
  rcases resolveReadReadWrite_cases m1 m2 m3 s with ⟨a, b, d, e, hl, hf, ha, hb, hx, hn⟩ | ⟨a, e, hl, hf⟩ | ⟨e, hl⟩
  · have hf' : instrFault s i = none := by simp [instrFault, hm, hl, hf, hj]
    rw [e] at hd ⊢
    simp only [storeResult]
    cases hr : resultWord s.cfg (f a b) with
    | none => exact .refused hf' ha hb (resultWord_eq_none.1 hr).1 (ho a b (resultWord_eq_none.1 hr).2)
    | some v =>
      obtain ⟨t, e', hc⟩ := completes_store hi hd hx.1 (fun hw => resultWord_isWord (by omega) hr) hn
      simp only [e']
      exact .done hf' hc
  · rw [e]; exact .fault (by simp [instrFault, hm, hl, hf])
  · rw [e]; exact .fault (by simp [instrFault, hm]; omega)

theorem exec_cases_compare {s : State} {i : Instr} {m1 m2 m3 : Nat} (f : Int → Int → Bool)
    (hi : i.roles = [.read, .read, .write]) (hm : i.modeDigits = [m1, m2, m3])
    (hd : storedAddress s i = (resolveReadReadWrite m1 m2 m3 s).toOption.map (·.2.2))
    (hj : nextPointerFault s i = none)
    (he : exec i s = match resolveReadReadWrite m1 m2 m3 s with
      | .error r => .next (takeFault r s)
      | .ok (a, b, d) => storeAndAdvance d (truthWord (f a b)) 4 s) : ExecEnd s i (exec i s) := by
  rw [he]
  rcases resolveReadReadWrite_cases m1 m2 m3 s with ⟨a, b, d, e, hl, hf, -, -, hx, hn⟩ | ⟨a, e, hl, hf⟩ | ⟨e, hl⟩
  · rw [e] at hd ⊢
    obtain ⟨t, e', hc⟩ := completes_store (v := truthWord (f a b)) hi hd hx.1 (fun hw => truthWord_isWord hw _) hn
    simp only [e']
    exact .done (by simp [instrFault, hm, hl, hf, hj]) hc
  · rw [e]; exact .fault (by simp [instrFault, hm, hl, hf])
  · rw [e]; exact .fault (by simp [instrFault, hm]; omega)

theorem exec_cases_jump {s : State} {i : Instr} {m1 m2 : Nat} (taken : Int → Bool)
    (hi : i.roles = [.read, .read]) (hm : i.modeDigits = [m1, m2])
    (hj : nextPointerFault s i = targetFault s taken (operandAt s 1 m1) (operandAt s 2 m2))
    (he : exec i s = match resolveReadRead m1 m2 s with
      | .error r => .next (takeFault r s)
      | .ok (c, t) => setNext (jumpNext (taken c) t s) s) : ExecEnd s i (exec i s) := by
  rw [he]
  rcases resolveReadRead_cases m1 m2 s with ⟨c, t, e, hl, hf, -, -, oc, ot, hn⟩ | ⟨a, e, hl, hf⟩ | ⟨e, hl⟩
  · rw [e]
    simp only [jumpNext]
    rw [oc, ot] at hj
    by_cases hc : taken c = true
    · rw [if_pos hc]
      rcases setNext_cases t s with ⟨hr, e'⟩ | ⟨hr, e'⟩ <;> rw [e']
      · refine .done ?_ (.jump hi (by omega))
        simp [instrFault, hm, hl, hf, hj, targetFault, hc, hr]
      · refine .fault ?_
        have : targetFault s taken (some c) (some t) = some t := if_pos ⟨hc, hr⟩
        simp [instrFault, hm, hl, hf, hj, this]
    · rw [if_neg hc, show (s.ip : Int) + 3 = (s.ip : Int) + (3 : Nat) from rfl, setNext_stride hn]
      refine .done ?_ (.jump hi hn)
      simp [instrFault, hm, hl, hf, hj, targetFault, hc]
  · rw [e]; exact .fault (by simp [instrFault, hm, hl, hf])
  · rw [e]; exact .fault (by simp [instrFault, hm]; omega)

/-- Every instruction ends in one of the four ways. -/
theorem exec_cases (s : State) (i : Instr) : ExecEnd s i (exec i s) := by
  cases i with
  | add m1 m2 m3 => exact exec_cases_arithmetic (· + ·) rfl rfl rfl rfl (fun _ _ h => .inl ⟨rfl, h⟩) rfl
  | multiply m1 m2 m3 => exact exec_cases_arithmetic (· * ·) rfl rfl rfl rfl (fun _ _ h => .inr ⟨rfl, h⟩) rfl
  | lessThan m1 m2 m3 => exact exec_cases_compare (fun a b => decide (a < b)) rfl rfl rfl rfl rfl
  | equals m1 m2 m3 => exact exec_cases_compare (fun a b => decide (a = b)) rfl rfl rfl rfl rfl
  | jumpIfTrue m1 m2 => exact exec_cases_jump (fun c => decide (c ≠ 0)) rfl rfl rfl rfl
  | jumpIfFalse m1 m2 => exact exec_cases_jump (fun c => decide (c = 0)) rfl rfl rfl rfl
  | halt => exact .done (by simp [instrFault, Instr.modeDigits, firstParamFault, nextPointerFault]) .halt
  | readInput m1 =>
    simp only [exec, execReadInput]
    rcases resolveWrite_cases m1 s with ⟨d, e, hl, hf, hx, hn⟩ | ⟨a, e, hl, hf⟩ | ⟨e, hl⟩
    · rw [e, inPop_value, inPop_snd]
      obtain ⟨m, hm, e'⟩ := storeAndAdvance_eq (s := s.setIq s.iq.tail) (s.iq.headD 0) hx.1 hn
      simp only [e']
      refine .done ?_ (.input (d := d) (by simp [storedAddress, e, Except.toOption]) hm hn)
      simp [instrFault, Instr.modeDigits, hl, hf, nextPointerFault]
    · rw [e]; exact .fault (by simp [instrFault, Instr.modeDigits, hl, hf])
    · rw [e]; exact .fault (by simp [instrFault, Instr.modeDigits]; omega)
  | writeOutput m1 =>
    simp only [exec, execWriteOutput]
    rcases resolveRead_cases m1 s with ⟨v, e, hl, hf, hv, hn⟩ | ⟨a, e, hl, hf⟩ | ⟨e, hl⟩
    · have hf' : instrFault s (.writeOutput m1) = none := by
        simp [instrFault, Instr.modeDigits, hl, hf, nextPointerFault]
      rw [e]
      simp only
      by_cases hr : HasOutputRoom s
      · rw [outPush_eq_some.2 ⟨hr, rfl⟩]
        simp only
        rw [show (s.ip : Int) + 2 = (s.ip : Int) + (2 : Nat) from rfl, setNext_stride (s := s.setOq (s.oq ++ [v])) hn]
        exact .done hf' (.output hv hr hn)
      · rw [outPush_eq_none.2 hr]
        exact .stuck rfl hf' hv hr
    · rw [e]; exact .fault (by simp [instrFault, Instr.modeDigits, hl, hf])
    · rw [e]; exact .fault (by simp [instrFault, Instr.modeDigits]; omega)

/-- The ends of a step. -/
inductive StepEnd (s : State) : Host.Outcome State Fault Refusal → Prop
  | idle (hs : s.st ≠ .running) : StepEnd s (.next s)
  | fault {r : Raise} (hs : s.st = .running) (hf : stepFault s = some r) : StepEnd s (.next (takeFault r s))
  | run {w : Int} {i : Instr} {o : Host.Outcome State Fault Refusal} (hs : s.st = .running)
      (hw : s.mem.read s.ip = some w) (hd : decode w = .ok i) (hf : stepFault s = none) (he : exec i s = o)
      (hx : ExecEnd s i o) : StepEnd s o

/-- A Running core dispatches the instruction it fetched and decoded (40_engine.md R104). -/
theorem step_of_fetchDecode {s : State} {i : Instr} (hs : s.st = .running) (h : fetchDecode s = .ok i) :
    step s = exec i s := by
  simp only [step, hs, h]

theorem fetchDecode_ok {s : State} {w : Int} {i : Instr} (hw : s.mem.read s.ip = some w) (hd : decode w = .ok i) :
    fetchDecode s = .ok i := by
  simp only [fetchDecode, memRead, hw, hd]

/-- Every step ends in one of these ways. -/
theorem step_cases (s : State) : StepEnd s (step s) := by
  by_cases hs : s.st = .running
  · cases hw : s.mem.read s.ip with
    | none =>
      have : step s = .next (takeFault (.addressOutOfBounds s.ip) s) := by simp [step, hs, fetchDecode, memRead, hw]
      rw [this]; exact .fault hs (by simp [stepFault, hw])
    | some w =>
      cases hd : decode w with
      | error j =>
        have : step s = .next (takeFault .invalidOpcode s) := by simp [step, hs, fetchDecode, memRead, hw, hd]
        rw [this]; exact .fault hs (by simp [stepFault, hw, hd])
      | ok i =>
        rw [step_of_fetchDecode hs (fetchDecode_ok hw hd)]
        have hf : stepFault s = instrFault s i := by simp [stepFault, hw, hd]
        have hx := exec_cases s i
        generalize he : exec i s = o at hx
        cases hx with
        | fault h => exact .fault hs (hf.trans h)
        | done h hc => exact .run hs hw hd (hf.trans h) he (.done h hc)
        | stuck hi h hv hr => exact .run hs hw hd (hf.trans h) he (.stuck hi h hv hr)
        | refused h ha hb ho hx => exact .run hs hw hd (hf.trans h) he (.refused h ha hb ho hx)
  · have : step s = .next s := by
      unfold step
      split <;> first | rfl | exact absurd ‹_› hs
    rw [this]; exact .idle hs

/-! ### What the two case lemmas give when a fault is known -/

/-- Fault entry records what R206 says and leaves the rest. -/
theorem takeFault_entered (r : Raise) (s : State) :
    FaultEntered s (takeFault r s) r.kind (s.mem.read s.ip) r.addr :=
  ⟨rfl, rfl, rfl, rfl, rfl, rfl, rfl, rfl, rfl, rfl⟩

theorem exec_of_instrFault {s : State} {i : Instr} {r : Raise} (h : instrFault s i = some r) :
    exec i s = .next (takeFault r s) := by
  have hx := exec_cases s i
  generalize exec i s = o at hx
  cases hx with
  | fault h' => rw [h] at h'; cases h'; rfl
  | done h' => rw [h] at h'; cases h'
  | stuck _ h' => rw [h] at h'; cases h'
  | refused h' => rw [h] at h'; cases h'

theorem step_of_stepFault {s : State} {r : Raise} (hs : s.st = .running) (h : stepFault s = some r) :
    step s = .next (takeFault r s) := by
  have hx := step_cases s
  generalize step s = o at hx
  cases hx with
  | idle h' => exact absurd hs h'
  | fault _ h' => rw [h] at h'; cases h'; rfl
  | run _ _ _ h' => rw [h] at h'; cases h'

/-- A step writes neither the parameters nor N. -/
theorem step_keeps_cfg_size {s t : State} (h : step s = .next t) : t.cfg = s.cfg ∧ t.mem.size = s.mem.size := by
  have hx := step_cases s
  rw [h] at hx
  cases hx with
  | idle => exact ⟨rfl, rfl⟩
  | fault => exact ⟨rfl, rfl⟩
  | run _ _ _ _ _ hx =>
    cases hx with
    | fault => exact ⟨rfl, rfl⟩
    | done _ hc =>
      cases hc with
      | store _ _ hm => exact ⟨rfl, Memory.write_size hm⟩
      | input _ hm => exact ⟨rfl, Memory.write_size hm⟩
      | output => exact ⟨rfl, rfl⟩
      | jump => exact ⟨rfl, rfl⟩
      | halt => exact ⟨rfl, rfl⟩

end Sys2Proof.Machine
end

