-- ==== Sys2Proof/Laws/Arbiter.lean ====
section
/-! SUPPORT. The port transactions of an instruction: its resolution reads, and at most one write after them. -/

namespace Sys2Proof.Machine

/-- Transactions without a write, inside memory but perhaps the last, which then has the address `fail`. -/
structure Reads (s : State) (ops : List PortOp) (fail : Option Int) : Prop where
  noWrite : ∀ op ∈ ops, ∀ d v, op ≠ .wr d v
  inside : ∀ op ∈ ops.dropLast, s.mem.InBounds op.addr
  failed : ∀ op ∈ ops, ¬ s.mem.InBounds op.addr → fail = some op.addr

theorem Reads.nil (s : State) (fail : Option Int) : Reads s [] fail := ⟨by simp, by simp, by simp⟩

/-- Transactions with no failure are all inside memory. -/
theorem Reads.all_inside {s : State} {ops : List PortOp} (h : Reads s ops none) :
    ∀ op ∈ ops, s.mem.InBounds op.addr := fun op ho => by
  by_contra hn
  exact nomatch h.failed op ho hn

theorem Reads.append {s : State} {ops ops' : List PortOp} {fail : Option Int} (h : Reads s ops none)
    (h' : Reads s ops' fail) : Reads s (ops ++ ops') fail := by
  refine ⟨fun op ho => ?_, fun op ho => ?_, fun op ho hn => ?_⟩
  · exact (List.mem_append.1 ho).elim (h.noWrite op) (h'.noWrite op)
  · by_cases he : ops' = []
    · subst he
      rw [List.append_nil] at ho
      exact h.inside op ho
    · rw [List.dropLast_append_of_ne_nil he] at ho
      exact (List.mem_append.1 ho).elim (h.all_inside op) (h'.inside op)
  · exact (List.mem_append.1 ho).elim (fun ho => absurd (h.all_inside op ho) hn) (h'.failed op · hn)

theorem readOps_reads (s : State) (k : Nat) {d : Nat} {m : Mode} (hm : modeOf d = .ok m) :
    Reads s (readOps s k m) (paramFault s k d) := by
  rcases modeOf_cases d with ⟨rfl, h⟩ | ⟨rfl, h⟩ | ⟨-, h⟩ <;> rw [h] at hm <;> cases hm
  · unfold readOps paramFault
    cases hs : s.mem.read (slot s k) with
    | none => exact ⟨by simp, by simp, by simp [PortOp.addr]⟩
    | some a =>
      have hb := (Memory.read_eq_some.1 hs).1
      refine ⟨by simp, fun op ho => ?_, fun op ho hn => ?_⟩
      · rw [List.mem_singleton.1 ho]; exact hb
      · rcases List.mem_cons.1 ho with rfl | ho
        · exact absurd hb hn
        · rw [List.mem_singleton.1 ho] at hn ⊢
          exact if_pos ⟨rfl, hn⟩
  · unfold readOps paramFault
    cases hs : s.mem.read (slot s k) with
    | none => exact ⟨by simp, by simp, by simp [PortOp.addr]⟩
    | some a =>
      refine ⟨by simp, by simp, fun op ho hn => ?_⟩
      rw [List.mem_singleton.1 ho] at hn
      exact absurd (Memory.read_eq_some.1 hs).1 hn

theorem writeOps_reads (s : State) (k : Nat) {d : Nat} {m : Mode} (hm : modeOf d = .ok m) :
    Reads s (writeOps s k m) (paramFault s k d) := by
  rcases modeOf_cases d with ⟨rfl, h⟩ | ⟨rfl, h⟩ | ⟨-, h⟩ <;> rw [h] at hm <;> cases hm
  · unfold writeOps paramFault
    cases hs : s.mem.read (slot s k) with
    | none => exact ⟨by simp, by simp, by simp [PortOp.addr]⟩
    | some a =>
      have hb := (Memory.read_eq_some.1 hs).1
      refine ⟨by simp, fun op ho => ?_, fun op ho hn => ?_⟩
      · rw [List.mem_singleton.1 ho]; exact hb
      · rcases List.mem_cons.1 ho with rfl | ho
        · exact absurd hb hn
        · rw [List.mem_singleton.1 ho] at hn ⊢
          exact if_pos ⟨rfl, hn⟩
  · unfold writeOps paramFault
    cases hs : s.mem.read (slot s k) with
    | none => exact ⟨by simp, by simp, by simp [PortOp.addr]⟩
    | some a =>
      refine ⟨by simp, by simp, fun op ho hn => ?_⟩
      rw [List.mem_singleton.1 ho] at hn
      exact absurd (Memory.read_eq_some.1 hs).1 hn

/-- The transactions of a read parameter are those R106 lists. -/
theorem readOps_eq_paramOps (s : State) (k : Nat) {d : Nat} {m : Mode} (hm : modeOf d = .ok m) :
    readOps s k m = paramOps s k .read d := by
  rcases modeOf_cases d with ⟨rfl, h⟩ | ⟨rfl, h⟩ | ⟨-, h⟩ <;> rw [h] at hm <;> cases hm
  · cases hs : s.mem.read (slot s k) <;> simp [readOps, paramOps, hs]
  · rfl

/-- The transactions of a write parameter are those R106 lists. -/
theorem writeOps_eq_paramOps (s : State) (k : Nat) {d : Nat} {m : Mode} (hm : modeOf d = .ok m) :
    writeOps s k m = paramOps s k .write d := by
  rcases modeOf_cases d with ⟨rfl, h⟩ | ⟨rfl, h⟩ | ⟨-, h⟩ <;> rw [h] at hm <;> cases hm
  · cases hs : s.mem.read (slot s k) <;> simp [writeOps, paramOps, hs]
  · rfl

theorem modeOf_legal {d : Nat} (h : d ≤ 1) : ∃ k, modeOf d = .ok k := by
  rcases modeOf_cases d with h' | h' | h'
  exacts [⟨_, h'.2⟩, ⟨_, h'.2⟩, absurd h h'.1]

/-- An illegal mode digit stops the step before any parameter access (R104). -/
theorem readReadWriteOps_illegal {m1 m2 m3 : Nat} (s : State) (f : Int → Int → Option Int)
    (hl : ¬ (m1 ≤ 1 ∧ m2 ≤ 1 ∧ m3 ≤ 1)) : readReadWriteOps m1 m2 m3 s f = [] := by
  rw [readReadWriteOps]
  rcases modeOf_cases m1 with h1 | h1 | h1 <;> rcases modeOf_cases m2 with h2 | h2 | h2 <;>
    rcases modeOf_cases m3 with h3 | h3 | h3 <;> simp [h1.2, h2.2, h3.2] <;> omega

theorem readReadOps_illegal {m1 m2 : Nat} (s : State) (hl : ¬ (m1 ≤ 1 ∧ m2 ≤ 1)) : readReadOps m1 m2 s = [] := by
  rw [readReadOps]
  rcases modeOf_cases m1 with h1 | h1 | h1 <;> rcases modeOf_cases m2 with h2 | h2 | h2 <;>
    simp [h1.2, h2.2] <;> omega

/-- The transactions of a, b and dest are those R106 lists, and then the write if all three resolve. -/
theorem readReadWriteOps_eq {m1 m2 m3 : Nat} (s : State) (f : Int → Int → Option Int)
    (hl : m1 ≤ 1 ∧ m2 ≤ 1 ∧ m3 ≤ 1) :
    ∃ ws, readReadWriteOps m1 m2 m3 s f = resolutionOps s 1 [(.read, m1), (.read, m2), (.write, m3)] ++ ws ∧
      match resolveReadReadWrite m1 m2 m3 s with
      | .ok (a, b, d) => ws = writeOp d (f a b)
      | .error _ => ws = [] := by
  obtain ⟨k1, h1⟩ := modeOf_legal hl.1
  obtain ⟨k2, h2⟩ := modeOf_legal hl.2.1
  obtain ⟨k3, h3⟩ := modeOf_legal hl.2.2
  simp only [readReadWriteOps, resolveReadReadWrite, h1, h2, h3, andThen, resolutionOps, bind, Except.bind,
    readOps_eq_paramOps s 1 h1, readOps_eq_paramOps s 2 h2, writeOps_eq_paramOps s 3 h3]
  rcases readParam_cases s 1 h1 with ⟨a, ea, -, -, fa⟩ | ⟨x, ea, fa⟩ <;> simp only [ea, fa]
  · rcases readParam_cases s 2 h2 with ⟨b, eb, -, -, fb⟩ | ⟨x, eb, fb⟩ <;> simp only [eb, fb]
    · rcases writeAddr_cases s 3 h3 with ⟨d, ed, -, fd⟩ | ⟨x, ed, fd⟩ <;> simp only [ed, fd]
      · exact ⟨_, by simp, rfl⟩
      · exact ⟨[], by simp, rfl⟩
    · exact ⟨[], by simp, rfl⟩
  · exact ⟨[], by simp, rfl⟩

/-- The transactions of cond and target are those R106 lists. -/
theorem readReadOps_eq {m1 m2 : Nat} (s : State) (hl : m1 ≤ 1 ∧ m2 ≤ 1) :
    readReadOps m1 m2 s = resolutionOps s 1 [(.read, m1), (.read, m2)] := by
  obtain ⟨k1, h1⟩ := modeOf_legal hl.1
  obtain ⟨k2, h2⟩ := modeOf_legal hl.2
  simp only [readReadOps, h1, h2, andThen, resolutionOps, readOps_eq_paramOps s 1 h1, readOps_eq_paramOps s 2 h2]
  rcases readParam_cases s 1 h1 with ⟨a, ea, -, -, fa⟩ | ⟨x, ea, fa⟩ <;> simp [ea, fa]

/-- The offending address of an instruction's parameters, if its modes are legal. -/
def resolveFault (s : State) (i : Instr) : Option Int :=
  if LegalModes i then firstParamFault s 1 i.modeDigits else none

/-- The two ways an instruction uses the memory port. -/
inductive OpsEnd (s : State) (i : Instr) : Prop
  | noWrite (hr : Reads s (instrOps s i) (resolveFault s i)) (hm : ∀ t, exec i s = .next t → t.mem = s.mem)
  | write {ops : List PortOp} {d v : Int} {m : Memory} (hr : Reads s ops none)
      (he : instrOps s i = ops ++ [.wr d v]) (hw : s.mem.write d v = some m)
      (hm : ∀ t, exec i s = .next t → t.mem = m)

/-- An instruction that faults leaves memory alone. -/
theorem mem_of_instrFault {s : State} {i : Instr} {r : Raise} (hf : instrFault s i = some r) :
    ∀ t, exec i s = .next t → t.mem = s.mem := by
  intro t h
  have hx := exec_cases s i
  rw [h] at hx
  cases hx with
  | fault => rfl
  | done hn => rw [hf] at hn; cases hn

theorem opsEnd_readReadWrite {s : State} {i : Instr} {m1 m2 m3 : Nat} (f : Int → Int → Option Int)
    (hi : i.modeDigits = [m1, m2, m3]) (ho : instrOps s i = readReadWriteOps m1 m2 m3 s f)
    (hd : ∀ a b d, resolveReadReadWrite m1 m2 m3 s = .ok (a, b, d) → ∀ v, f a b = some v →
      exec i s = storeAndAdvance d v 4 s)
    (hn : ∀ a b d, resolveReadReadWrite m1 m2 m3 s = .ok (a, b, d) → f a b = none → ∀ t, exec i s ≠ .next t) :
    OpsEnd s i := by
  rcases resolveReadReadWrite_cases m1 m2 m3 s with ⟨a, b, d, e, hl, hf, -, -, hx, hN⟩ | ⟨x, e, hl, hf⟩ | ⟨e, hl⟩
  · obtain ⟨k1, h1⟩ := modeOf_legal hl.1
    obtain ⟨k2, h2⟩ := modeOf_legal hl.2.1
    obtain ⟨k3, h3⟩ := modeOf_legal hl.2.2
    have r1 := readOps_reads s 1 h1
    have r2 := readOps_reads s 2 h2
    have r3 := writeOps_reads s 3 h3
    have e' := e
    simp only [resolveReadReadWrite, h1, h2, h3, bind, Except.bind, pure, Except.pure] at e'
    rcases readParam_cases s 1 h1 with ⟨a', ea, -, -, fa⟩ | ⟨y, ea, -⟩ <;> rw [ea] at e' <;>
      simp only [reduceCtorEq] at e'
    rcases readParam_cases s 2 h2 with ⟨b', eb, -, -, fb⟩ | ⟨y, eb, -⟩ <;> rw [eb] at e' <;>
      simp only [reduceCtorEq] at e'
    rcases writeAddr_cases s 3 h3 with ⟨d', ed, -, fd⟩ | ⟨y, ed, -⟩ <;> rw [ed] at e' <;>
      simp only [reduceCtorEq] at e'
    cases e'
    rw [fa] at r1
    rw [fb] at r2
    rw [fd] at r3
    have ho' : instrOps s i = readOps s 1 k1 ++ (readOps s 2 k2 ++ writeOps s 3 k3) ++ writeOp d (f a b) := by
      simp [ho, readReadWriteOps, h1, h2, h3, andThen, ea, eb, ed]
    cases hr : f a b with
    | none =>
      refine .noWrite ?_ fun t ht => absurd ht (hn a b d e hr t)
      have : resolveFault s i = none := by simp [resolveFault, hi, hf]
      rw [ho', hr, this, writeOp, List.append_nil]
      exact r1.append (r2.append r3)
    | some v =>
      obtain ⟨m, hm, es⟩ := storeAndAdvance_eq v hx.1 hN
      refine .write (r1.append (r2.append r3)) (by rw [ho', hr, writeOp]) hm fun t ht => ?_
      rw [hd a b d e v hr, es] at ht
      cases ht; rfl
  · obtain ⟨k1, h1⟩ := modeOf_legal hl.1
    obtain ⟨k2, h2⟩ := modeOf_legal hl.2.1
    obtain ⟨k3, h3⟩ := modeOf_legal hl.2.2
    have r1 := readOps_reads s 1 h1
    have r2 := readOps_reads s 2 h2
    have r3 := writeOps_reads s 3 h3
    refine .noWrite ?_ (mem_of_instrFault (r := .addressOutOfBounds x) (by simp [instrFault, hi, hl, hf]))
    have : resolveFault s i = some x := by simp [resolveFault, hi, hl, hf]
    rw [ho, this]
    simp only [firstParamFault] at hf
    rcases readParam_cases s 1 h1 with ⟨a', ea, -, -, fa⟩ | ⟨y, ea, fa⟩
    · rw [fa] at r1 hf
      rcases readParam_cases s 2 h2 with ⟨b', eb, -, -, fb⟩ | ⟨y, eb, fb⟩
      · rw [fb] at r2 hf
        rcases writeAddr_cases s 3 h3 with ⟨d', ed, -, fd⟩ | ⟨y, ed, fd⟩
        · rw [fd] at hf; simp at hf
        · rw [fd] at r3 hf
          simp only [readReadWriteOps, h1, h2, h3, andThen, ea, eb, ed, List.append_nil]
          simp at hf; subst hf
          exact r1.append (r2.append r3)
      · rw [fb] at r2 hf
        simp only [readReadWriteOps, h1, h2, h3, andThen, ea, eb, List.append_nil]
        simp at hf; subst hf
        exact r1.append r2
    · rw [fa] at r1 hf
      simp only [readReadWriteOps, h1, h2, h3, andThen, ea, List.append_nil]
      simp at hf; subst hf
      exact r1
  · refine .noWrite ?_ (mem_of_instrFault (r := .invalidMode) (by simp [instrFault, hi]; omega))
    rw [ho, readReadWriteOps_illegal s f hl]
    exact .nil ..

theorem opsEnd_readRead {s : State} {i : Instr} {m1 m2 : Nat} (hi : i.modeDigits = [m1, m2])
    (ho : instrOps s i = readReadOps m1 m2 s) (hr : i.roles = [.read, .read]) : OpsEnd s i := by
  have hm : ∀ t, exec i s = .next t → t.mem = s.mem := by
    intro t h
    have hx := exec_cases s i
    rw [h] at hx
    cases hx with
    | fault => rfl
    | done _ hc =>
      cases hc with
      | store hi' => rw [hr] at hi'; cases hi'
      | input => cases hr
      | output => rfl
      | jump => rfl
      | halt => rfl
  refine .noWrite ?_ hm
  rw [ho]
  by_cases hl : m1 ≤ 1 ∧ m2 ≤ 1
  · rw [readReadOps]
    obtain ⟨k1, h1⟩ := modeOf_legal hl.1
    obtain ⟨k2, h2⟩ := modeOf_legal hl.2
    have r1 := readOps_reads s 1 h1
    have r2 := readOps_reads s 2 h2
    have : resolveFault s i = (paramFault s 1 m1).or (paramFault s 2 m2) := by
      simp [resolveFault, hi, hl, firstParamFault]
    rw [this]
    simp only [h1, h2, andThen]
    rcases readParam_cases s 1 h1 with ⟨a, ea, -, -, fa⟩ | ⟨x, ea, fa⟩
    · rw [fa] at r1 ⊢
      simpa [ea] using r1.append r2
    · rw [fa] at r1 ⊢
      simpa [ea] using r1
  · rw [readReadOps_illegal s hl]
    exact .nil ..

/-- Every instruction uses the memory port in one of the two ways (40_engine.md R106, R107). -/
theorem instrOps_cases (s : State) (i : Instr) : OpsEnd s i := by
  have arith : ∀ {d x : Int} {t : State}, resultWord s.cfg x = none → storeResult x d s ≠ .next t := by
    intro d x t h
    simp [storeResult, h]
  cases i with
  | add m1 m2 m3 =>
    exact opsEnd_readReadWrite (fun a b => resultWord s.cfg (a + b)) rfl rfl
      (fun a b d e v hv => by simp [exec, execAdd, e, storeResult, hv])
      (fun a b d e hv t => by simpa [exec, execAdd, e] using arith hv)
  | multiply m1 m2 m3 =>
    exact opsEnd_readReadWrite (fun a b => resultWord s.cfg (a * b)) rfl rfl
      (fun a b d e v hv => by simp [exec, execMultiply, e, storeResult, hv])
      (fun a b d e hv t => by simpa [exec, execMultiply, e] using arith hv)
  | lessThan m1 m2 m3 =>
    exact opsEnd_readReadWrite (fun a b => some (lessWord a b)) rfl rfl
      (fun a b d e v hv => by cases hv; simp [exec, execLessThan, e]) (fun a b d e hv t => by cases hv)
  | equals m1 m2 m3 =>
    exact opsEnd_readReadWrite (fun a b => some (equalWord a b)) rfl rfl
      (fun a b d e v hv => by cases hv; simp [exec, execEquals, e]) (fun a b d e hv t => by cases hv)
  | jumpIfTrue m1 m2 => exact opsEnd_readRead rfl rfl rfl
  | jumpIfFalse m1 m2 => exact opsEnd_readRead rfl rfl rfl
  | halt => exact .noWrite (.nil ..) fun t h => by cases h; rfl
  | writeOutput m1 =>
    have hm : ∀ t, exec (.writeOutput m1) s = .next t → t.mem = s.mem := by
      intro t h
      have hx := exec_cases s (.writeOutput m1)
      rw [h] at hx
      cases hx with
      | fault => rfl
      | done _ hc =>
        cases hc with
        | store hi => cases hi
        | output => rfl
        | jump => rfl
    refine .noWrite ?_ hm
    simp only [instrOps, resolveFault]
    rcases modeOf_cases m1 with ⟨rfl, h⟩ | ⟨rfl, h⟩ | ⟨-, h⟩
    · rw [h]; simpa [LegalModes, Instr.modeDigits, firstParamFault] using readOps_reads s 1 h
    · rw [h]; simpa [LegalModes, Instr.modeDigits, firstParamFault] using readOps_reads s 1 h
    · rw [h]; exact .nil ..
  | readInput m1 =>
    rcases resolveWrite_cases m1 s with ⟨d, e, hl, hf, hx, hn⟩ | ⟨x, e, hl, hf⟩ | ⟨e, hl⟩
    · obtain ⟨k1, h1⟩ := modeOf_legal hl
      have r1 := writeOps_reads s 1 h1
      have ew : writeAddr s 1 k1 = .ok d := by simpa [resolveWrite, h1, bind, Except.bind] using e
      have fw : paramFault s 1 m1 = none := by simpa [firstParamFault] using hf
      rw [fw] at r1
      obtain ⟨m, hm, es⟩ := storeAndAdvance_eq (s := s.setIq s.iq.tail) (n := 2) (s.iq.headD 0) hx.1 hn
      refine .write (v := s.iq.headD 0) r1 (by simp [instrOps, h1, andThen, ew, writeOp, inPop_value]) hm fun t h => ?_
      simp only [exec, execReadInput, e, inPop_value, inPop_snd, es] at h
      cases h; rfl
    · obtain ⟨k1, h1⟩ := modeOf_legal hl
      have r1 := writeOps_reads s 1 h1
      have ew : writeAddr s 1 k1 = .error (.addressOutOfBounds x) := by
        simpa [resolveWrite, h1, bind, Except.bind] using e
      have fw : paramFault s 1 m1 = some x := by simpa [firstParamFault] using hf
      have hr : resolveFault s (.readInput m1) = some x := by simp [resolveFault, Instr.modeDigits, hl, hf]
      refine .noWrite ?_ (mem_of_instrFault (r := .addressOutOfBounds x) (by simp [instrFault, Instr.modeDigits, hl, hf]))
      rw [hr]
      simpa [instrOps, h1, andThen, ew, fw] using r1
    · refine .noWrite ?_ (mem_of_instrFault (r := .invalidMode) (by simp [instrFault, Instr.modeDigits]; omega))
      have : instrOps s (.readInput m1) = [] := by simp [instrOps, modeOf_illegal hl]
      rw [this]; exact .nil ..

/-! ### The trace of a step -/

/-- The fetch of a word inside memory. -/
theorem fetch_reads {s : State} {w : Int} (hw : s.mem.read s.ip = some w) : Reads s [.rd s.ip] none := by
  refine ⟨by simp, by simp, fun op ho hn => ?_⟩
  rw [List.mem_singleton.1 ho] at hn
  exact absurd (Memory.read_eq_some.1 hw).1 hn

/-- The trace of a step: empty, a fetch that ends the step with a fault, or a fetch and the transactions of the
instruction. -/
theorem portTrace_cases (s : State) :
    (s.st ≠ .running ∧ portTrace s = []) ∨
      (s.st = .running ∧ portTrace s = [.rd s.ip] ∧
        (s.mem.read s.ip = none ∨ ∃ w, s.mem.read s.ip = some w ∧ ∃ j, decode w = .error j)) ∨
      ∃ w i, s.st = .running ∧ s.mem.read s.ip = some w ∧ decode w = .ok i ∧
        portTrace s = .rd s.ip :: instrOps s i := by
  by_cases hs : s.st = .running
  · cases hw : s.mem.read s.ip with
    | none => exact .inr (.inl ⟨hs, by simp [portTrace, hs, fetchDecode, memRead, hw], .inl rfl⟩)
    | some w =>
      cases hd : decode w with
      | error j =>
        exact .inr (.inl ⟨hs, by simp [portTrace, hs, fetchDecode, memRead, hw, hd], .inr ⟨w, rfl, j, hd⟩⟩)
      | ok i => exact .inr (.inr ⟨w, i, hs, rfl, hd, by simp [portTrace, hs, fetchDecode, memRead, hw, hd]⟩)
  · refine .inl ⟨hs, ?_⟩
    unfold portTrace
    split <;> first | rfl | exact absurd ‹_› hs

end Sys2Proof.Machine
end

