-- ==== Sys2Proof/Laws/Decode.lean ====
section
/-! SUPPORT. The decoder on non-negative words: its digits as quotients and remainders by literals, and when it
answers an instruction. -/

namespace Sys2Proof

theorem digit_two (n : Nat) : digit n 2 = n / 100 % 10 := rfl
theorem digit_three (n : Nat) : digit n 3 = n / 1000 % 10 := rfl
theorem digit_four (n : Nat) : digit n 4 = n / 10000 % 10 := rfl

/-- The decoder's fields of a non-negative word (30_encoding.md R61). -/
theorem decodeFields_natCast (n : Nat) :
    decodeFields n = ⟨tagOf (n % 100), n / 100 % 10, n / 1000 % 10, n / 10000 % 10⟩ := by
  have : ¬ (n : Int) < 0 := by omega
  rw [decodeFields, if_neg this, Int.toNat_natCast, digit_two, digit_three, digit_four, opcodeOf]

/-- When a word decodes to i: it is non-negative and its fields select i. -/
theorem decode_eq_ok {w : Int} {i : Instr} :
    decode w = .ok i ↔ ∃ n : Nat, w = n ∧
      (⟨tagOf (n % 100), n / 100 % 10, n / 1000 % 10, n / 10000 % 10⟩ : Fields).instr? = some i := by
  constructor
  · intro h
    by_cases hw : w < 0
    · simp [decode, decodeFields, hw, Fields.instr?] at h
    · obtain ⟨n, hn⟩ := Int.eq_ofNat_of_zero_le (Int.not_lt.1 hw)
      subst hn
      refine ⟨n, rfl, ?_⟩
      rw [← decodeFields_natCast]
      unfold decode at h
      split at h
      · next j hj => cases h; exact hj
      · cases h
  · rintro ⟨n, rfl, h⟩
    rw [← decodeFields_natCast] at h
    simp [decode, h]

/-- A word is rejected exactly when no instruction has it. -/
theorem decode_eq_error {w : Int} : (∃ j, decode w = .error j) ↔ ∀ i, decode w ≠ .ok i := by
  cases decode w <;> simp

end Sys2Proof
end

