-- ==== Sys2Proof/Laws/HostPort.lean ====
section
/-! SUPPORT. What the host's LOAD and RUN and the answer of a step can be, each said once. -/

namespace Sys2Proof.Machine

/-- The two ends of LOAD (70_reset_and_hazards.md R231, R232). -/
theorem hostTransact_load_cases (p : List Int) (s : State) :
    (LoadAccepted p s ∧ hostTransact (.load p) s = (some .accepted, loadState p s)) ∨
      (¬ LoadAccepted p s ∧ hostTransact (.load p) s = (some .refused, s)) := by
  by_cases h : LoadAccepted p s
  · exact .inl ⟨h, if_pos h⟩
  · exact .inr ⟨h, if_neg h⟩

/-- The two ends of RUN at its start (R233): started without an answer, or refused. -/
theorem hostTransact_run_cases (inputs : List Int) (s : State) :
    (RunAccepted inputs s ∧ hostTransact (.run inputs) s = (none, runState inputs s)) ∨
      (¬ RunAccepted inputs s ∧ hostTransact (.run inputs) s = (some .refused, s)) := by
  by_cases h : RunAccepted inputs s
  · exact .inl ⟨h, if_pos h⟩
  · exact .inr ⟨h, if_neg h⟩

/-- A state holds an outcome exactly when its run has ended (40_engine.md R115). -/
theorem runOutcome_isSome {s : State} : (runOutcome s).isSome ↔ RunEnded s := by
  unfold runOutcome RunEnded
  cases s.st <;> simp

/-- A Running step with a transition answers the outcome of the state after it, if that is one (R101, R116). -/
theorem stepAnswer_of_next {s t : State} (hs : s.st = .running) (h : step s = .next t) :
    stepAnswer s = (runOutcome t).map .ended := by
  simp only [stepAnswer, if_pos hs, h]

theorem stepAnswer_idle {s : State} (hs : s.st ≠ .running) : stepAnswer s = none := if_neg hs

/-- Where an answer comes from: the step that ends a run. -/
theorem stepAnswer_eq_some {s : State} {a : HostAnswer} :
    stepAnswer s = some a ↔ s.st = .running ∧ ∃ t o, step s = .next t ∧ runOutcome t = some o ∧ a = .ended o := by
  by_cases hs : s.st = .running
  · cases h : step s with
    | next t => simp [stepAnswer_of_next hs h, hs, eq_comm]
    | fault f => simp [stepAnswer, hs, h]
    | refused r => simp [stepAnswer, hs, h]
  · simp [stepAnswer_idle hs, hs]

end Sys2Proof.Machine
end

