-- ==== Sys2Proof/Laws/Invariant.lean ====
section
/-! SUPPORT. Every value an operation takes from a well-formed state is a word, and fault entry keeps
`State.Wf`. -/

namespace Sys2Proof.Machine

/-- An operand is a word when memory holds words. -/
theorem IsOperand.isWord {s : State} {k d : Nat} {v : Int} (hw : ∀ c ∈ s.mem.cells, IsWord s.cfg.W c.2)
    (h : IsOperand s k d v) : IsWord s.cfg.W v := by
  rcases h with ⟨-, h⟩ | ⟨-, h⟩
  · cases hs : s.mem.read (slot s k) with
    | none => simp [hs] at h
    | some a =>
      simp only [hs, Option.bind_some] at h
      exact Memory.read_isWord hw (zero_isWord _) h
  · exact Memory.read_isWord hw (zero_isWord _) h

/-- Every address and every value of ip is a word (00_scope.md R7). -/
theorem natCast_isWord {c : Config} (hc : c.Wf) {n : Nat} (h : n ≤ c.NMAX) : IsWord c.W n := by
  have hm := hc.2
  have hp : (0 : Int) < (2 ^ (c.W - 1) : Nat) := by positivity
  have hn : (n : Int) ≤ c.NMAX := by exact_mod_cast h
  refine ⟨?_, by omega⟩
  unfold wordMin
  omega

theorem paramFault_isWord {s : State} (h : s.Wf) {k d : Nat} {a : Int} (hp : paramFault s k d = some a)
    (hk : slot s k ≤ s.mem.size) : IsWord s.cfg.W a := by
  unfold paramFault at hp
  split at hp
  · cases hp
    have hs := h.2.1.2.1
    have := natCast_isWord h.1 (n := s.ip + k) (by unfold slot at hk; omega)
    unfold slot
    exact_mod_cast this
  · next hx =>
    split at hp
    · cases hp
      exact Memory.read_isWord h.2.1.2.2 (zero_isWord _) hx
    · cases hp

theorem firstParamFault_isWord {s : State} (h : s.Wf) {ds : List Nat} {k : Nat} {a : Int}
    (hk : slot s k ≤ s.mem.size) (hp : firstParamFault s k ds = some a) : IsWord s.cfg.W a := by
  induction ds generalizing k with
  | nil => simp [firstParamFault] at hp
  | cons d ds ih =>
    simp only [firstParamFault] at hp
    cases hq : paramFault s k d with
    | some x =>
      rw [hq, Option.some_or] at hp
      cases hp
      exact paramFault_isWord h hq hk
    | none =>
      rw [hq, Option.none_or] at hp
      refine ih ?_ hp
      have := (slot_inBounds hq).2
      unfold slot at *
      push_cast
      omega

theorem operandAt_isWord {s : State} (h : s.Wf) {k d : Nat} {a : Int} (hp : operandAt s k d = some a) :
    IsWord s.cfg.W a := by
  refine IsOperand.isWord (k := k) (d := if d = 0 then 0 else 1) h.2.1.2.2 ?_
  unfold operandAt at hp
  split at hp
  · exact .inl ⟨if_pos ‹_›, hp⟩
  · exact .inr ⟨if_neg ‹_›, hp⟩

theorem targetFault_isWord {s : State} {f : Int → Bool} {c t : Option Int} {a : Int}
    (ht : ∀ x, t = some x → IsWord s.cfg.W x) (hp : targetFault s f c t = some a) : IsWord s.cfg.W a := by
  unfold targetFault at hp
  split at hp
  · split at hp
    · cases hp
      exact ht _ rfl
    · cases hp
  · cases hp

/-- The address an instruction's fault records is a word. -/
theorem instrFault_isWord {s : State} (h : s.Wf) {i : Instr} {r : Raise} (hn : s.ip < s.mem.size)
    (hf : instrFault s i = some r) : ∀ a ∈ r.addr, IsWord s.cfg.W a := by
  unfold instrFault at hf
  split at hf
  · cases hf
    simp [Raise.addr]
  · cases hq : firstParamFault s 1 i.modeDigits with
    | some x =>
      rw [hq, Option.some_or] at hf
      cases hf
      simp only [Raise.addr, Option.mem_some_iff, forall_eq']
      exact firstParamFault_isWord h (by unfold slot; omega) hq
    | none =>
      rw [hq, Option.none_or] at hf
      cases hj : nextPointerFault s i with
      | none => simp [hj] at hf
      | some x =>
        rw [hj] at hf
        cases hf
        simp only [Raise.addr, Option.mem_some_iff, forall_eq']
        cases i <;> simp only [nextPointerFault, reduceCtorEq] at hj <;>
          exact targetFault_isWord (fun _ => operandAt_isWord h) hj

/-- Fault entry with a word for its address keeps the invariant. -/
theorem takeFault_wf {s : State} (h : s.Wf) {r : Raise} (hr : ∀ a ∈ r.addr, IsWord s.cfg.W a) :
    (takeFault r s).Wf := by
  have hip := natCast_isWord h.1 (le_trans h.2.2.1 h.2.1.2.1)
  refine ⟨h.1, h.2.1, h.2.2.1, h.2.2.2.1,
    ⟨?_, ?_, hip, fun w hw => Memory.read_isWord h.2.1.2.2 (zero_isWord _) hw, hr⟩, ?_, fun _ => ⟨rfl, rfl⟩,
    fun h => (nomatch h), fun h => (nomatch h)⟩
  · cases r <;> simp [Raise.addr, Raise.kind]
  · cases r <;> simp [Raise.kind]
  · cases r <;> simp [Raise.kind]

/-- A write of a word leaves memory full of words. -/
theorem Memory.write_cells_isWord {m n : Memory} {W : Nat} {a v : Int} (h : ∀ c ∈ m.cells, IsWord W c.2)
    (hv : IsWord W v) (hw : m.write a v = some n) : ∀ c ∈ n.cells, IsWord W c.2 := by
  obtain ⟨-, rfl⟩ := Memory.write_eq_some.1 hw
  intro c hc
  rcases mem_cellsWrite hc with ⟨rfl, -⟩ | hc
  · exact hv
  · exact h c hc

end Sys2Proof.Machine
end

