-- ==== Sys2Proof/Laws/PerInstr.lean ====
section
/-! SUPPORT. Facts about each instruction as syntax, one lemma per constructor. The family `CanonicalWord`: the
encoded word of a well-formed instruction is non-negative, has at most p + 2 decimal digits and has the
instruction's opcode as its two low digits (spec 30_encoding.md R61, R70, R75). -/

namespace Sys2Proof.Laws.CanonicalWord

def Statement (i : Instr) : Prop :=
  i.wellFormed = true → 0 ≤ encode i ∧ encode i < 10 ^ (i.length + 1) ∧ encode i % 100 = i.opcode

theorem add (m1 m2 m3 : Nat) : Statement (.add m1 m2 m3) := by
  intro h
  simp [Instr.wellFormed, Instr.modeDigits] at h
  simp only [encode, encodeWord, Instr.length, Instr.paramCount, Instr.roles, List.length, Instr.opcode]
  omega

theorem multiply (m1 m2 m3 : Nat) : Statement (.multiply m1 m2 m3) := by
  intro h
  simp [Instr.wellFormed, Instr.modeDigits] at h
  simp only [encode, encodeWord, Instr.length, Instr.paramCount, Instr.roles, List.length, Instr.opcode]
  omega

theorem readInput (m1 : Nat) : Statement (.readInput m1) := by
  intro h
  simp [Instr.wellFormed, Instr.modeDigits] at h
  simp only [encode, encodeWord, Instr.length, Instr.paramCount, Instr.roles, List.length, Instr.opcode]
  omega

theorem writeOutput (m1 : Nat) : Statement (.writeOutput m1) := by
  intro h
  simp [Instr.wellFormed, Instr.modeDigits] at h
  simp only [encode, encodeWord, Instr.length, Instr.paramCount, Instr.roles, List.length, Instr.opcode]
  omega

theorem jumpIfTrue (m1 m2 : Nat) : Statement (.jumpIfTrue m1 m2) := by
  intro h
  simp [Instr.wellFormed, Instr.modeDigits] at h
  simp only [encode, encodeWord, Instr.length, Instr.paramCount, Instr.roles, List.length, Instr.opcode]
  omega

theorem jumpIfFalse (m1 m2 : Nat) : Statement (.jumpIfFalse m1 m2) := by
  intro h
  simp [Instr.wellFormed, Instr.modeDigits] at h
  simp only [encode, encodeWord, Instr.length, Instr.paramCount, Instr.roles, List.length, Instr.opcode]
  omega

theorem lessThan (m1 m2 m3 : Nat) : Statement (.lessThan m1 m2 m3) := by
  intro h
  simp [Instr.wellFormed, Instr.modeDigits] at h
  simp only [encode, encodeWord, Instr.length, Instr.paramCount, Instr.roles, List.length, Instr.opcode]
  omega

theorem equals (m1 m2 m3 : Nat) : Statement (.equals m1 m2 m3) := by
  intro h
  simp [Instr.wellFormed, Instr.modeDigits] at h
  simp only [encode, encodeWord, Instr.length, Instr.paramCount, Instr.roles, List.length, Instr.opcode]
  omega

theorem halt : Statement .halt := by
  intro _
  simp only [encode, encodeWord, Instr.length, Instr.paramCount, Instr.roles, List.length, Instr.opcode]
  omega

end Sys2Proof.Laws.CanonicalWord
end

