-- ==== Sys2Proof/Tests/Slice0.lean ====
section
/-! SUPPORT. Tests. The expected results are those of the spec's own vectors (95_test_vectors.md; the vector's
name is in the test's name or comment) or are worked by hand from a rule. The `witness_` theorems show states and
operands that meet the hypotheses of the statement they are named after. -/

namespace Sys2Proof.Tests

open Sys2Proof.Machine

/-! ### Small states -/

/-- W = 16 with small capacities, the decided OVERFLOW and OQ_CAP. -/
def w16 : Config := ⟨16, 40, .wrap, 2, none⟩

/-- W = 16 with OVERFLOW = refuse and room for one output. -/
def strict : Config := ⟨16, 40, .refuse, 2, some 1⟩

/-- A core at the start of a RUN after LOAD. -/
def start (c : Config) (p q : List Int) : State := runState q (loadState p (State.powerOn c))

/-- The same for the parameters of `State.reset` and no input. -/
def boot (p : List Int) : State := start Config.reference p []

/-- The next state of a step, if there is one. -/
def after (s : State) : Option State :=
  match step s with
  | .next t => some t
  | .fault _ => none
  | .refused _ => none

theorem step_of_after {s t : State} (h : after s = some t) : step s = .next t := by
  unfold after at h
  cases hs : step s <;> simp_all

def memAfter (s : State) : Option (List Int) := (after s).map fun t => t.mem.toWords
def ipAfter (s : State) : Option Nat := (after s).map fun t => t.ip
def frAfter (s : State) : Option FaultRecord := (after s).map fun t => t.fr

/-! ### WellFormed: a digit of 10 is refused in each place -/

theorem test_wellFormed_add_m1 : Instr.wellFormed (.add 10 0 0) = false := by decide
theorem test_wellFormed_multiply_m2 : Instr.wellFormed (.multiply 0 10 0) = false := by decide
theorem test_wellFormed_lessThan_m3 : Instr.wellFormed (.lessThan 0 0 10) = false := by decide
theorem test_wellFormed_equals_m3 : Instr.wellFormed (.equals 9 9 10) = false := by decide
theorem test_wellFormed_readInput : Instr.wellFormed (.readInput 10) = false := by decide
theorem test_wellFormed_writeOutput : Instr.wellFormed (.writeOutput 10) = false := by decide
theorem test_wellFormed_jumpIfTrue_m2 : Instr.wellFormed (.jumpIfTrue 0 10) = false := by decide
theorem test_wellFormed_jumpIfFalse_m1 : Instr.wellFormed (.jumpIfFalse 10 0) = false := by decide
theorem test_wellFormed_accepts : Instr.wellFormed (.equals 9 0 2) = true ∧ Instr.wellFormed .halt = true := by decide

/-! ### Decode: a word of each instruction, from 95_test_vectors.md -/

theorem test_decode_D1 : (decode 1002).toOption = some (.multiply 0 1 0) := by decide
theorem test_decode_D2 : (decode 11108).toOption = some (.equals 1 1 1) := by decide
theorem test_decode_D3 : (decode 10001).toOption = some (.add 0 0 1) := by decide
theorem test_decode_D5 : (decode 100001).toOption = some (.add 0 0 0) := by decide
theorem test_decode_D7 : (decode 299).toOption = some .halt := by decide
theorem test_decode_D8 : decodeFields 20004 = ⟨.OUT, 0, 0, 2⟩ := by decide
theorem test_decode_D9 : (decode 201).toOption = some (.add 2 0 0) := by decide
theorem test_decode_D10 : (decode 2105).toOption = some (.jumpIfTrue 1 2) := by decide
theorem test_decode_D12 : decodeFields 0 = ⟨.INVALID, 0, 0, 0⟩ := by decide
theorem test_decode_D13 : (decode 9).toOption = none ∧ (decode 98).toOption = none ∧ (decode 100).toOption = none ∧
    (decode 199).toOption = some .halt := by decide
theorem test_decode_D14 : (decode (-1)).toOption = none ∧ (decode (-99)).toOption = none ∧
    (decode (-101)).toOption = none := by decide
theorem test_decode_I1 : (decode 103).toOption = some (.readInput 1) := by decide
theorem test_decode_I5 : (decode 104).toOption = some (.writeOutput 1) := by decide
theorem test_decode_J7_J8 : (decode 1005).toOption = some (.jumpIfTrue 0 1) ∧
    (decode 1006).toOption = some (.jumpIfFalse 0 1) := by decide
theorem test_decode_C : (decode 1107).toOption = some (.lessThan 1 1 0) ∧
    (decode 1108).toOption = some (.equals 1 1 0) := by decide

/-- P1's program text assembles to its words. -/
theorem test_assemble_P1 : assemble
    [⟨some 0, .inp ⟨.position, 12⟩⟩, ⟨some 2, .out ⟨.position, 12⟩⟩,
      ⟨some 4, .add ⟨.position, 12⟩ ⟨.immediate, -1⟩ ⟨.position, 12⟩⟩,
      ⟨some 8, .jt ⟨.position, 12⟩ ⟨.immediate, 2⟩⟩, ⟨some 11, .halt⟩, ⟨some 12, .words [0]⟩] =
    some [3, 12, 4, 12, 1001, 12, -1, 12, 1005, 12, 2, 99, 0] := by decide

/-- A two's-complement table word of 64 ones is the word −1. -/
theorem test_tableWord_negative : tableWord 64 (2 ^ 64 - 1) 0 = -1 := by decide
theorem test_decodeTableWord : decodeTableWord 16 1005 = some (.jumpIfTrue 0 1) := by decide

/-- The placed word is what the next step runs: `add [0], [0], [0]` of the word 1 itself. -/
theorem test_withFetchWord : memAfter (State.reset.withFetchWord 8 1) = some [2, 0, 0, 0] := by decide

/-! ### One step of each instruction -/

theorem test_add_M1_reads_before_write : memAfter (boot [1, 5, 5, 5, 99, 21]) = some [1, 5, 5, 5, 99, 42] := by decide
theorem test_add_A1_wraps : memAfter (start w16 [1101, 32767, 1, 0, 99] []) = some [-32768, 32767, 1, 0, 99] := by
  decide
theorem test_multiply_A3_A5 : memAfter (boot [1102, -9223372036854775808, -1, 0, 99]) =
      some [-9223372036854775808, -9223372036854775808, -1, 0, 99] ∧
    memAfter (start w16 [1102, 32767, 32767, 0, 99] []) = some [1, 32767, 32767, 0, 99] := by decide
theorem test_multiply_A8 : memAfter (boot [1102, -3, 4, 0, 99]) = some [-12, -3, 4, 0, 99] := by decide
theorem test_readInput_I1 : memAfter (start w16 [103, 0, 99] [77]) = some [103, 77, 99] := by decide
theorem test_readInput_V6_empty : memAfter (boot [3, 3, 99, 7]) = some [3, 3, 99, 0] := by decide
theorem test_writeOutput_I6 : (after (boot [4, 3, 99, -5])).map (fun t => (t.oq, t.ip)) = some ([-5], 2) := by decide
theorem test_writeOutput_I7 : frAfter (boot [4, 9, 99]) = some ⟨.addressOutOfBounds, 0, some 4, some 9⟩ := by decide
theorem test_jumpIfTrue_J3_negative : ipAfter (boot [1105, -1, 4, 99, 99]) = some 4 := by decide
theorem test_jumpIfTrue_J9_eager_target :
    frAfter (boot [5, 5, 100, 99, 0, 0]) = some ⟨.addressOutOfBounds, 0, some 5, some 100⟩ := by decide
theorem test_jumpIfFalse_J4_negative : ipAfter (boot [1106, -1, 4, 99, 99]) = some 3 := by decide
theorem test_jumpIfFalse_J8_unused_target : ipAfter (boot [1006, 5, -1, 99, 0, 1]) = some 3 := by decide
theorem test_lessThan_C4_signed : memAfter (start w16 [1107, -32768, 32767, 5, 99, 7] []) =
    some [1107, -32768, 32767, 5, 99, 1] := by decide
theorem test_lessThan_C3_equal : memAfter (boot [1107, 3, 3, 5, 99, 7]) = some [1107, 3, 3, 5, 99, 0] := by decide
theorem test_equals_C6_C7 : memAfter (boot [1108, -5, -5, 5, 99, 7]) = some [1108, -5, -5, 5, 99, 1] ∧
    memAfter (boot [1108, 5, -5, 5, 99, 7]) = some [1108, 5, -5, 5, 99, 0] := by decide
theorem test_halt_H1 : (after (boot [100099])).map (fun t => (t.st, t.ip)) = some (.halted, 0) := by decide

/-! ### Faults -/

theorem test_fault_H2_negative_word : frAfter (boot [-99]) = some ⟨.invalidOpcode, 0, some (-99), none⟩ := by decide
theorem test_fault_H4_mode : frAfter (boot [204, 0, 99]) = some ⟨.invalidMode, 0, some 204, none⟩ := by decide
theorem test_fault_H3_mode_before_slot :
    frAfter ((boot [1, 0, 0, 0, 20001]).setIp 4) = some ⟨.invalidMode, 4, some 20001, none⟩ := by decide
theorem test_fault_H5_empty_program : frAfter (boot []) = some ⟨.addressOutOfBounds, 0, none, some 0⟩ := by decide
theorem test_fault_M7_slot : frAfter (boot [1, 0, 0]) = some ⟨.addressOutOfBounds, 0, some 1, some 3⟩ := by decide
theorem test_fault_M8_negative : frAfter (boot [1, -1, 0, 0, 99]) = some ⟨.addressOutOfBounds, 0, some 1, some (-1)⟩ := by
  decide
theorem test_fault_I4_keeps_input : (after (start w16 [3, 100, 99] [5])).map (fun t => (t.iq, t.fr.addr)) =
    some ([5], some 100) := by decide

/-! ### Witnesses: power-on and the host -/

/-- A halted, a faulted and a running core. -/
def halted : State := (boot [99]).setSt .halted
def faulted : State := takeFault .invalidOpcode (boot [0])

theorem witness_PowerOnMeetsInvariant : Config.reference.Wf ∧ w16.Wf := by decide

theorem witness_AcceptedLoadSetsEverything : LoadAccepted [99, -32768, 32767] faulted ∧ LoadAccepted [] State.reset ∧
    (∀ p, HostCommand.run [] ≠ .load p) := by
  refine ⟨by decide, by decide, fun p h => (nomatch h)⟩

/-- Each case of refusal, at its boundary: Running, NMAX + 1 words, MAX + 1 and MIN − 1. -/
theorem witness_LoadIsRefusedInThreeCases :
    ((boot [99]).st = .running) ∧ (State.powerOn w16).cfg.NMAX < (List.replicate 41 (0 : Int)).length ∧
    LoadAccepted (List.replicate 40 0) (State.powerOn w16) ∧
    (∃ v ∈ [(32768 : Int)], ¬ IsWord (State.powerOn w16).cfg.W v) ∧
    (∃ v ∈ [(-32769 : Int)], ¬ IsWord (State.powerOn w16).cfg.W v) ∧
    (hostTransact (.load [32768]) (State.powerOn w16)).1 = some .refused := by decide

theorem witness_RunStartsAtZeroOrIsRefused :
    (State.reset.st = .ready ∧ halted.st = .halted ∧ faulted.st = .faulted) ∧
    RunAccepted [1, -1] (State.powerOn w16) ∧ RunAccepted [] halted ∧ RunAccepted [] faulted ∧
    (boot [99]).st = .running ∧ (∃ v ∈ [(32768 : Int)], ¬ IsWord w16.W v) ∧ w16.IQ_CAP < [(1 : Int), 2, 3].length := by
  decide

/-- A halted core with an output and a faulted one with none, over the same memory. -/
theorem witness_RunForgetsEarlierRuns : let s := halted.setOq [1]
    let t := takeFault .invalidMode (boot [99])
    s.cfg = t.cfg ∧ s.mem = t.mem ∧ s.st ≠ .running ∧ t.st ≠ .running ∧ s ≠ t ∧
      (hostTransact (.run []) s).1 = none := by decide

theorem witness_SnapshotAnswersMemoryInOrder : halted.st ≠ .running ∧
    hostTransact .snapshot halted = (some (.snapshot [99]), halted) := by decide

theorem witness_StatusShowsRecordWhenFaulted : faulted.st = .faulted ∧ faulted.st ≠ .running ∧
    halted.st = .halted ∧ halted.st ≠ .running ∧ State.reset.st = .ready ∧ State.reset.st ≠ .running := by decide

/-- R180: a halt at address 2 shows 2 through STATUS. -/
theorem test_halt_ip_through_status :
    (after ((boot [3, 0, 99]).setIp 2)).map (fun t => (hostTransact .status t).1) =
      some (some (.status .halted none (some 2))) := by decide

theorem witness_HostHasNoMoveWhileRunning : (boot [99]).st = .running := by decide

theorem witness_StatusMovesOnlyAsTabled :
    (∃ t, step (boot [0]) = .next t ∧ t.st = .faulted) ∧ (∃ t, step (boot [99]) = .next t ∧ t.st = .halted) ∧
    (∃ t, step (boot [104, 7, 99]) = .next t ∧ t.st = .running) ∧ (∃ t, step halted = .next t ∧ halted.st ≠ .running) ∧
    LoadAccepted [] halted ∧ RunAccepted [] halted :=
  ⟨⟨_, rfl, by decide⟩, ⟨_, rfl, by decide⟩, ⟨_, rfl, by decide⟩, ⟨_, rfl, by decide⟩, by decide, by decide⟩

/-- R235 with inputs, after a STATUS and an idle step, and from a Halted and a Faulted core over no program. -/
theorem witness_RunWithoutLoadFaultsAtZero :
    NeverLoaded w16 (hostTransact .status (State.powerOn w16)).2 ∧ RunAccepted [5, -5] (State.powerOn w16) ∧
    (let s := (State.powerOn w16).setSt .halted; s.mem.size = 0 ∧ RunAccepted [] s) ∧
    (let s := takeFault (.addressOutOfBounds 0) (boot []); s.mem.size = 0 ∧ RunAccepted [7] s) :=
  ⟨.host .status (fun p h => (nomatch h)) .powerOn, by decide, by decide, by decide⟩

/-- V1, V9 and P5: a run that halts, one that faults and one that never ends; and a stuck step. -/
theorem witness_RunIsAnsweredOnceWhenItEnds :
    (let f : Nat → State := fun n => if n = 0 then boot [99] else halted;
      (∀ n, step (f n) = .next (f (n + 1))) ∧ (f 0).st = .running ∧ (f 1).st = .halted ∧
        stepAnswer (f 0) = some (.ended (.halted []))) ∧
    (let f : Nat → State := fun n => if n = 0 then boot [0] else faulted;
      (∀ n, step (f n) = .next (f (n + 1))) ∧ (f 0).st = .running ∧ (f 1).st = .faulted) ∧
    (let f : Nat → State := fun _ => boot [1105, 1, 0];
      (∀ n, step (f n) = .next (f (n + 1))) ∧ ∀ n, (f n).st = .running) ∧
    ∀ t, step ((start strict [104, 7] []).setOq [5]) ≠ .next t := by
  have loop : after (boot [1105, 1, 0]) = some (boot [1105, 1, 0]) := by decide
  refine ⟨⟨fun n => ?_, rfl, rfl, by decide⟩, ⟨fun n => ?_, rfl, rfl⟩, ⟨fun _ => step_of_after loop, fun _ => rfl⟩,
    fun t h => (nomatch h)⟩ <;> cases n <;> rfl

/-! ### Witnesses: memory -/

/-- Memory that holds the words [7, 8], read at 0, N − 1, −1 and N. -/
theorem witness_MemReadIsBoundsChecked : let s := boot [7, 8]
    (∀ i : Nat, s.mem.read i = [(7 : Int), 8][i]?) ∧ s.mem.size = [(7 : Int), 8].length ∧
      s.mem.read 0 = some 7 ∧ s.mem.read 1 = some 8 ∧ s.mem.read (-1) = none ∧ s.mem.read 2 = none :=
  ⟨Memory.read_ofWords _, rfl, by decide, by decide, by decide, by decide⟩

theorem witness_MemWriteThenRead : let s := boot [3, 1, 0]
    s.mem.wf ∧ s.mem.InBounds 0 ∧ s.mem.InBounds 2 ∧ ¬ s.mem.InBounds (-1) ∧ ¬ s.mem.InBounds 3 ∧
      (writeAddr s 1 .position).toOption = some 1 ∧ (writeAddr s 1 .immediate).toOption = some 1 := by decide

theorem witness_MemoryLengthIsFixedByLoad : (∃ t, step (boot [1, 0, 0, 0]) = .next t) ∧
    (∀ p, HostCommand.snapshot ≠ .load p) ∧ ¬ (0 ≤ (-1 : Int) ∧ (-1 : Int) < (boot [1, 0, 0, 0]).mem.size) ∧
    ¬ (0 ≤ (4 : Int) ∧ (4 : Int) < (boot [1, 0, 0, 0]).mem.size) :=
  ⟨⟨_, rfl⟩, fun p h => (nomatch h), by decide, by decide⟩

/-- A cell written with 0 and a cell loaded with 0: the same memory. -/
theorem witness_CanonicalMemoryIsDeterminedByReads : let m := Memory.ofWords [5, 0]
    let n : Memory := ⟨2, cellsWrite (Memory.ofWords [5, 9]).cells 1 0⟩
    m.wf ∧ n.wf ∧ m.size = n.size ∧ ∀ a, m.read a = n.read a := ⟨by decide, by decide, by decide, fun _ => rfl⟩

/-- V4: the add writes 99 into cell 4, where the next step fetches it. -/
theorem witness_NextFetchSeesTheWrite : let s := boot [1101, 100, -1, 4, 0]
    s.mem.wf ∧ PortOp.wr 4 99 ∈ portTrace s ∧ (decode 99).toOption = some .halt ∧
      ∃ t, step s = .next t ∧ (t.ip : Int) = 4 ∧ t.st = .running :=
  ⟨by decide, by decide, by decide, _, rfl, by decide, by decide⟩

/-- M-8: a read outside memory ends the step; V4: the write comes last. -/
theorem witness_PortReadsThenWritesOnce :
    (portTrace (boot [1, -1, 0, 0, 99]) = [.rd 0, .rd 1, .rd (-1)] ∧ ¬ (boot [1, -1, 0, 0, 99]).mem.InBounds (-1)) ∧
    portTrace (boot [1101, 100, -1, 4, 0]) = [.rd 0, .rd 1, .rd 2, .rd 3, .check 4, .wr 4 99] := by decide

theorem witness_MemoryEffectIsTheTracedWrite : (boot [1101, 100, -1, 4, 0]).mem.wf ∧
    PortOp.wr 4 99 ∈ portTrace (boot [1101, 100, -1, 4, 0]) ∧ (∃ t, step (boot [1101, 100, -1, 4, 0]) = .next t) ∧
    (∃ t, step (boot [99]) = .next t) ∧ ∀ d v, PortOp.wr d v ∉ portTrace (boot [99]) := by
  refine ⟨by decide, by decide, ⟨_, rfl⟩, ⟨_, rfl⟩, fun d v h => ?_⟩
  rw [show portTrace (boot [99]) = [.rd 0] by decide] at h
  simp at h

/-- The accesses of M-8 (a failed dereference), M-3 (an immediate destination), a word with an illegal mode, a word that
does not decode, a core that is not Running, and a result refused under OVERFLOW = refuse: worked from R106. -/
theorem witness_PortTraceFollowsTheAccessOrder :
    (let s := boot [1, -1, 0, 0, 99];
      LegalModes (.add 0 0 0) ∧ storedAddress s (.add 0 0 0) = none ∧
        resolutionOps s 1 [(.read, 0), (.read, 0), (.write, 0)] = [.rd 1, .rd (-1)]) ∧
    (let s := boot [11101, 2, 3, 0, 99];
      LegalModes (.add 1 1 1) ∧ storedAddress s (.add 1 1 1) = some 3 ∧
        portTrace s = [.rd 0, .rd 1, .rd 2, .check 3, .wr 3 5]) ∧
    (¬ LegalModes (.writeOutput 2) ∧ portTrace (boot [204, 0, 99]) = [.rd 0]) ∧
    (∀ i, (decode 98).toOption ≠ some i) ∧ portTrace (boot [98]) = [.rd 0] ∧ portTrace State.reset = [] ∧
    storedAddress (start strict [1101, 32767, 1, 0] []) (.add 1 1 0) = some 0 :=
  ⟨by decide, by decide, by decide, fun i h => (nomatch h), by decide, by decide, by decide⟩

/-! ### Witnesses: decoding and encoding -/

theorem witness_FieldsAreDecimalDigits : (0 : Int) ≤ 21902 ∧ (902 : Int) % 100 = 21902 % 100 ∧
    decodeFields 21902 = ⟨.MUL, 9, 1, 2⟩ ∧ decodeFields 99 = ⟨.HALT, 0, 0, 0⟩ ∧ decodeFields 999 = ⟨.HALT, 9, 0, 0⟩ ∧
    decodeFields 9999 = ⟨.HALT, 9, 9, 0⟩ := by decide

theorem witness_OpcodeMapIsClosed : (decode 199).toOption = some .halt ∧ (decode 8).toOption = some (.equals 0 0 0) := by
  decide

theorem witness_UnusedDigitsAreIgnored : (decode 4).toOption = some (.writeOutput 0) ∧
    (20004 : Int) % 10 ^ ((Instr.writeOutput 0).length + 1) = 4 % 10 ^ ((Instr.writeOutput 0).length + 1) ∧
    (decode 1).toOption = some (.add 0 0 0) ∧
    (100001 : Int) % 10 ^ ((Instr.add 0 0 0).length + 1) = 1 % 10 ^ ((Instr.add 0 0 0).length + 1) := by decide

theorem witness_DecodeInvertsEncode : Instr.wellFormed (.equals 9 0 9) = true ∧ Instr.wellFormed .halt = true := by
  decide

theorem witness_EncodeInvertsDecodeUpToIgnoredDigits : (decode 120004).toOption = some (.writeOutput 0) := by decide

theorem witness_CanonicalWordIsBelow11200 : LegalModes (.equals 1 1 1) ∧ LegalModes .halt ∧
    encode (.equals 1 1 1) = 11108 ∧ encode .halt = 99 := by decide

/-- A right, an absent and a wrong prefix, and a rest that fails. -/
theorem witness_AssembledLineIsItsInstruction :
    assembleFrom (4 + AsmBody.halt.assemble.length) [⟨none, .words [7, -1]⟩] = some [7, -1] ∧
    assembleFrom 4 [⟨some 4, .halt⟩, ⟨none, .words [7, -1]⟩] = some [99, 7, -1] ∧
    assembleFrom (0 + AsmBody.halt.assemble.length) [⟨some 0, .halt⟩] = none ∧ (1 : Nat) ≠ 0 := by decide

/-! ### Witnesses: the step and its faults -/

theorem witness_StepRunsTheDecodedInstruction : let s := boot [1101, 100, -1, 4, 0]
    s.st = .running ∧ s.mem.read s.ip = some 1101 ∧ (decode 1101).toOption = some (.add 1 1 0) := by decide

theorem witness_CoreNotRunningKeepsItsState : State.reset.st ≠ .running ∧ halted.st ≠ .running ∧
    faulted.st ≠ .running := by decide

theorem witness_InvalidOpcodeIsRaised :
    ((boot [-1]).st = .running ∧ (boot [-1]).mem.read (boot [-1]).ip = some (-1)) ∧
    ((boot [98]).mem.read (boot [98]).ip = some 98 ∧ (98 : Int) % 100 ∉ [1, 2, 3, 4, 5, 6, 7, 8, (99 : Int)]) ∧
    ((boot [100]).mem.read (boot [100]).ip = some 100 ∧ (100 : Int) % 100 ∉ [1, 2, 3, 4, 5, 6, 7, 8, (99 : Int)]) := by
  decide

theorem witness_InvalidModeIsRaised :
    ((boot [204]).st = .running ∧ (boot [204]).mem.read (boot [204]).ip = some 204 ∧
      (decode 204).toOption = some (.writeOutput 2) ∧ 2 ∈ (Instr.writeOutput 2).modeDigits) ∧
    ((decode 90001).toOption = some (.add 0 0 9) ∧ 9 ∈ (Instr.add 0 0 9).modeDigits) := by decide

/-- (a) the fetch at N; (b) slot 3 at N; (c) a read operand at N and at −1; (d) a destination at N; (e) targets
N + 1 and −1. -/
theorem witness_AddressFaultsInFivePlaces :
    ((boot []).st = .running ∧ (boot []).ip = (boot []).mem.size) ∧
    ((boot [1, 0, 0]).mem.size ≤ (boot [1, 0, 0]).ip + (2 + 1) ∧ LegalModes (.add 0 0 0) ∧
      (Instr.add 0 0 0).modeDigits[2]? = some 0 ∧ paramFault (boot [1, 0, 0]) 1 0 = none ∧
      paramFault (boot [1, 0, 0]) 2 0 = none) ∧
    ((boot [1, 4, 0, 0]).mem.read 1 = some 4 ∧ ((boot [1, 4, 0, 0]).mem.size : Int) ≤ 4 ∧
      (boot [1, -1, 0, 0]).mem.read 1 = some (-1)) ∧
    ((boot [1, 0, 0, 4]).mem.read 3 = some 4 ∧ paramFault (boot [1, 0, 0, 4]) 2 0 = none) ∧
    (IsOperand (boot [1105, 1, 4]) 1 1 1 ∧ IsOperand (boot [1105, 1, 4]) 2 1 4 ∧
      ((boot [1105, 1, 4]).mem.size : Int) < 4 ∧ IsOperand (boot [1106, 0, -1]) 1 1 0 ∧
      IsOperand (boot [1106, 0, -1]) 2 1 (-1) ∧ (decode 1106).toOption = some (.jumpIfFalse 1 1)) := by decide

theorem witness_StepFaultsInPriorityOrder : stepFault (boot []) = some (.addressOutOfBounds 0) ∧
    stepFault (boot [0]) = some .invalidOpcode ∧ stepFault (boot [20001]) = some .invalidMode ∧
    stepFault (boot [1105, 1, 7, 99]) = some (.addressOutOfBounds 7) ∧ stepFault (boot [99]) = none ∧
    (boot [99]).st = .running ∧ ∃ t, step (boot [99]) = .next t :=
  ⟨by decide, by decide, by decide, by decide, by decide, by decide, _, rfl⟩

theorem witness_EveryFaultIsPreciseAndReported :
    (boot [1, 0, 0]).st = .running ∧ ∃ t, step (boot [1, 0, 0]) = .next t ∧ t.st = .faulted := ⟨by decide, _, rfl, by decide⟩

/-- 0 and N are accepted, −1 and N + 1 are not. -/
theorem witness_NextPointerIsChecked : let s := boot [99, 99]
    s.st = .running ∧ (0 : Int) ≤ s.mem.size ∧ (2 : Int) = s.mem.size ∧ (-1 : Int) < 0 ∧ (s.mem.size : Int) < 3 := by
  decide

theorem witness_StrideNeverLeavesMemory : instrFault (boot [1, 0, 0, 0]) (.add 0 0 0) = none ∧
    (∃ t, exec (.add 0 0 0) (boot [1, 0, 0, 0]) = .next t) ∧
    (∀ m1 m2, Instr.add 0 0 0 ≠ .jumpIfTrue m1 m2 ∧ Instr.add 0 0 0 ≠ .jumpIfFalse m1 m2) ∧
    Instr.add 0 0 0 ≠ .halt := ⟨by decide, ⟨_, rfl⟩, fun _ _ => ⟨fun h => (nomatch h), fun h => (nomatch h)⟩, by decide⟩

/-! ### Witnesses: the instructions -/

theorem witness_AddStoresWrappedSum :
    (let s := boot [1001, 4, -1, 0, 7];
      s.cfg.OVERFLOW = .wrap ∧ s.mem.wf ∧ IsOperand s 1 0 7 ∧ IsOperand s 2 1 (-1) ∧ IsDestination s 3 0 0) ∧
    IsDestination (boot [11101, 2, 3, 9]) 3 1 3 := by decide

theorem witness_MultiplyStoresWrappedProduct : let s := boot [102, 7, 0, 4, 9]
    s.cfg.OVERFLOW = .wrap ∧ s.mem.wf ∧ IsOperand s 1 1 7 ∧ IsOperand s 2 0 102 ∧ IsDestination s 3 0 4 := by decide

/-- MAX + 0 is a word; MAX + 1 and MIN · −1 are none, and OVERFLOW is refuse. -/
theorem witness_OverflowSettingsAgreeInRange :
    (let s := start strict [1101, 32767, 1, 0] [];
      s.cfg.Wf ∧ s.mem.wf ∧ IsOperand s 1 1 32767 ∧ IsOperand s 2 1 1 ∧ IsDestination s 3 0 0 ∧
        ¬ IsWord s.cfg.W (32767 + 1) ∧ s.cfg.OVERFLOW = .refuse) ∧
    (let s := start strict [1102, -32768, -1, 0] [];
      IsOperand s 1 1 (-32768) ∧ IsOperand s 2 1 (-1) ∧ ¬ IsWord s.cfg.W (-32768 * -1)) ∧
    (let s := start strict [1101, 32767, 0, 0] [];
      IsOperand s 1 1 32767 ∧ IsOperand s 2 1 0 ∧ IsDestination s 3 0 0 ∧ IsWord s.cfg.W (32767 + 0)) := by decide

theorem witness_WrapIsTheCongruentWord : 1 ≤ w16.W ∧ IsWord 16 (-32768) ∧ (2 ^ 16 : Int) ∣ -32768 - 32768 := by decide

theorem witness_WrapCornerCases : 16 ≤ w16.W ∧ IsWord 16 (-32768) ∧ IsWord 16 32767 := by decide

/-- −1 < 0 (C-1) and 3 < 3 (C-3). -/
theorem witness_LessThanStoresTruth :
    (let s := boot [1107, -1, 0, 5, 99, 7];
      s.mem.wf ∧ IsOperand s 1 1 (-1) ∧ IsOperand s 2 1 0 ∧ IsDestination s 3 0 5) ∧
    (let s := boot [1107, 3, 3, 5, 99, 7];
      s.mem.wf ∧ IsOperand s 1 1 3 ∧ IsOperand s 2 1 3 ∧ IsDestination s 3 0 5) := by decide

/-- C-8 and C-7. -/
theorem witness_EqualsStoresTruth :
    (let s := boot [8, 0, 0, 5, 99, 7];
      s.mem.wf ∧ IsOperand s 1 0 8 ∧ IsOperand s 2 0 8 ∧ IsDestination s 3 0 5) ∧
    (let s := boot [1108, 5, -5, 5, 99, 7];
      s.mem.wf ∧ IsOperand s 1 1 5 ∧ IsOperand s 2 1 (-5) ∧ IsDestination s 3 0 5) := by decide

theorem witness_ReadInputStoresHeadOrZero :
    (let s := start w16 [103, 0, 99] [77];
      s.mem.wf ∧ IsDestination s 1 1 1 ∧ s.iq = 77 :: []) ∧
    (let s := boot [3, 3, 99, 0];
      s.mem.wf ∧ IsDestination s 1 0 3 ∧ s.iq = []) := by decide

theorem witness_WriteOutputAppends :
    (IsOperand (boot [4, 3, 99, -5]) 1 0 (-5) ∧ HasOutputRoom (boot [4, 3, 99, -5])) ∧
    (IsOperand (start strict [104, 7] []) 1 1 7 ∧ HasOutputRoom (start strict [104, 7] [])) := by decide

/-- Targets 0 and N are taken to; not taken; targets −1 and N + 1 fault. -/
theorem witness_JumpIfTrueGoesToTarget :
    (IsOperand (boot [1105, 1, 0]) 1 1 1 ∧ IsOperand (boot [1105, 1, 0]) 2 1 0) ∧
    (IsOperand (boot [1105, -1, 3]) 1 1 (-1) ∧ IsOperand (boot [1105, -1, 3]) 2 1 3 ∧
      (3 : Int) ≤ (boot [1105, -1, 3]).mem.size) ∧
    (IsOperand (boot [1105, 0, -1]) 1 1 0 ∧ IsOperand (boot [1105, 0, -1]) 2 1 (-1)) ∧
    (IsOperand (boot [1105, 1, -1]) 1 1 1 ∧ IsOperand (boot [1105, 1, -1]) 2 1 (-1)) ∧
    (IsOperand (boot [1105, 1, 4]) 2 1 4 ∧ ((boot [1105, 1, 4]).mem.size : Int) < 4) := by decide

theorem witness_JumpIfFalseGoesToTarget :
    (IsOperand (boot [1106, 0, 0]) 1 1 0 ∧ IsOperand (boot [1106, 0, 0]) 2 1 0) ∧
    (IsOperand (boot [1106, 0, 3]) 2 1 3 ∧ (3 : Int) ≤ (boot [1106, 0, 3]).mem.size) ∧
    (IsOperand (boot [1106, -1, -1]) 1 1 (-1) ∧ IsOperand (boot [1106, -1, -1]) 2 1 (-1)) ∧
    (IsOperand (boot [1106, 0, -1]) 1 1 0 ∧ IsOperand (boot [1106, 0, -1]) 2 1 (-1)) ∧
    (IsOperand (boot [1106, 0, 4]) 2 1 4 ∧ ((boot [1106, 0, 4]).mem.size : Int) < 4) := by decide

/-! ### Witnesses: frames, queues, stops, invariant -/

/-- An add that completes, a read-input that completes, and an add that faults (M-6). -/
theorem witness_StoringInstructionsFrame :
    (let s := boot [1, 0, 0, 0, 99];
      s.mem.wf ∧ storedAddress s (.add 0 0 0) = some 0 ∧ instrFault s (.add 0 0 0) = none ∧
        ∃ t, exec (.add 0 0 0) s = .next t) ∧
    (let s := start w16 [3, 0, 99] [9];
      s.mem.wf ∧ storedAddress s (.readInput 0) = some 0 ∧ instrFault s (.readInput 0) = none ∧
        ∃ t, exec (.readInput 0) s = .next t) ∧
    (let s := boot [1, 0, 0, 100, 99];
      s.mem.wf ∧ storedAddress s (.add 0 0 0) = none ∧ instrFault s (.add 0 0 0) ≠ none ∧
        ∃ t, exec (.add 0 0 0) s = .next t) :=
  ⟨⟨by decide, by decide, by decide, _, rfl⟩, ⟨by decide, by decide, by decide, _, rfl⟩,
    by decide, by decide, by decide, _, rfl⟩

theorem witness_NonStoringInstructionsFrame :
    (instrFault (boot [104, 7]) (.writeOutput 1) = none ∧ ∃ t, exec (.writeOutput 1) (boot [104, 7]) = .next t) ∧
    (instrFault (boot [1105, 1, 0]) (.jumpIfTrue 1 1) = none ∧
      ∃ t, exec (.jumpIfTrue 1 1) (boot [1105, 1, 0]) = .next t) ∧
    (instrFault (boot [1105, 1, 7]) (.jumpIfTrue 1 1) ≠ none ∧
      ∃ t, exec (.jumpIfTrue 1 1) (boot [1105, 1, 7]) = .next t) ∧
    (instrFault (boot [99]) .halt = none ∧ ∃ t, exec .halt (boot [99]) = .next t) :=
  ⟨⟨by decide, _, rfl⟩, ⟨by decide, _, rfl⟩, ⟨by decide, _, rfl⟩, by decide, _, rfl⟩

theorem witness_InputIsPoppedInOrder : (start w16 [3, 0, 99] [5, 6]).iq = 5 :: [6] ∧ (boot [3, 0, 99]).iq = [] ∧
    ∃ t, step (start w16 [3, 0, 99] [5, 6]) = .next t ∧ t.iq = [6] := ⟨rfl, rfl, _, rfl, by decide⟩

theorem witness_OutputLogOnlyGrowsAtItsEnd :
    ∃ t, step ((boot [104, 7]).setOq [5]) = .next t ∧ t.oq = [5, 7] := ⟨_, rfl, by decide⟩

theorem witness_CoreIsStuckOnlyOnAFullLog : let s := (start strict [104, 7] []).setOq [5]
    step s = .fault .outputLogFull ∧ IsOperand s 1 1 7 ∧ s.cfg.OQ_CAP = some 1 ∧ 1 ≤ s.oq.length :=
  ⟨rfl, by decide, rfl, by decide⟩

theorem witness_OnlyOverflowIsRefused :
    step (start strict [1101, 32767, 1, 0] []) = .refused .resultOutOfRange := rfl

theorem witness_DecidedCoreAlwaysHasATransition : (boot [104, 7]).cfg.Decided := by decide

theorem witness_StepKeepsInvariant : (boot [1101, 100, -1, 4, 0]).Wf ∧
    ∃ t, step (boot [1101, 100, -1, 4, 0]) = .next t := ⟨by decide, _, rfl⟩

theorem witness_HostKeepsInvariant : (boot [99]).Wf ∧ faulted.Wf ∧ halted.Wf ∧ State.reset.Wf :=
  ⟨by decide, by decide, by decide, by decide⟩

theorem witness_ReachableStatesMeetInvariant : Config.reference.Wf ∧ Reachable Config.reference (boot [99]) :=
  ⟨by decide, .host (.run []) (.host (.load [99]) .powerOn)⟩

end Sys2Proof.Tests
end

section
/-! The word of an exact value is the one word congruent to it (spec 00_scope.md R10). -/

namespace Sys2Proof.Machine

/-- A wrapped value is congruent to the value modulo 2^W (00_scope.md R10). -/
theorem dvd_wrapWord_sub (W : Nat) (v : Int) : (2 ^ W : Int) ∣ wrapWord W v - v := by
  exact_mod_cast Int.dvd_bmod_sub_self (x := v) (m := 2 ^ W)

/-- Wrapping depends on the value modulo 2^W only: values have one word exactly when they are congruent. -/
theorem wrapWord_eq_wrapWord_iff_dvd {W : Nat} {u v : Int} :
    wrapWord W u = wrapWord W v ↔ (2 ^ W : Int) ∣ u - v := by
  rw [wrapWord, wrapWord, Int.bmod_eq_bmod_iff_bmod_sub_eq_zero, ← Int.dvd_iff_bmod_eq_zero,
    Nat.cast_pow, Nat.cast_ofNat]

/-- Settles O39: a word u congruent to v is its own wrapped value, which is that of v. -/
theorem wrapIsTheCongruentWord : Obligations.WrapIsTheCongruentWord := by
  intro W v hW
  refine ⟨wrapWord_isWord hW v, dvd_wrapWord_sub W v, fun u hu huv => ?_⟩
  calc u = wrapWord W u := (wrapWord_of_isWord hW hu).symm
    _ = wrapWord W v := wrapWord_eq_wrapWord_iff_dvd.mpr huv

end Sys2Proof.Machine
end

section
/-! The bounds check of memory accesses and the fixed length of memory (spec 20_memory.md R41, R43). -/

namespace Sys2Proof.Machine

/-- The port refuses exactly the writes out of bounds (20_memory.md R43). -/
theorem Memory.write_eq_none {m : Memory} {a : Int} {v : Word} : m.write a v = none ↔ ¬ m.InBounds a := by
  simp [Memory.write]

theorem memWrite_error {s : State} {a v : Int} {r : Raise} :
    memWrite s a v = .error r ↔ ¬ s.mem.InBounds a ∧ r = .addressOutOfBounds a := by
  rw [← Memory.write_eq_none (v := v), memWrite]
  cases s.mem.write a v <;> simp [eq_comm]

/-- Only LOAD writes memory: every other host transaction leaves all of it as it was. -/
theorem hostTransact_mem_of_ne_load {cmd : HostCommand} (h : ∀ p, cmd ≠ .load p) (s : State) :
    (hostTransact cmd s).2.mem = s.mem := by
  cases cmd with
  | load p => exact absurd rfl (h p)
  | run inputs =>
    obtain ⟨-, e⟩ | ⟨-, e⟩ := hostTransact_run_cases inputs s
    · rw [e]
      rfl
    · rw [e]
  | snapshot => simp only [hostTransact, apply_ite Prod.snd, ite_self]
  | status => simp only [hostTransact, apply_ite Prod.snd, ite_self]

/-- Settles O12: the read of a listed word is the port's, and outside [0, N) the port reads nothing. -/
theorem memReadIsBoundsChecked : Obligations.MemReadIsBoundsChecked := by
  intro s p hread hsize a
  constructor
  · rintro i rfl v hv
    exact memRead_ok.2 ((hread i).trans hv)
  · intro ha
    have hout : ¬ s.mem.InBounds a := fun hin => by
      obtain ⟨hlow, hhigh⟩ := hin
      omega
    exact memRead_error.2 ⟨Memory.read_eq_none.2 hout, rfl⟩

/-- Settles O14: no step and no transaction but LOAD changes N, and `memWrite` checks the bounds. -/
theorem memoryLengthIsFixedByLoad : Obligations.MemoryLengthIsFixedByLoad := by
  refine ⟨fun s t hstep => ?_, fun cmd s hcmd => ?_, fun s a v hout => ?_⟩
  · exact (step_keeps_cfg_size hstep).2
  · rw [hostTransact_mem_of_ne_load hcmd]
  · exact memWrite_error.2 ⟨hout, rfl⟩

end Sys2Proof.Machine
end

section
/-! The decoder's fields as decimal digits of the word (spec 30_encoding.md R62 to R64). -/

namespace Sys2Proof.Machine

/-- The decoder's fields of a non-negative word by integer arithmetic on the word (30_encoding.md R62, R63). -/
theorem decodeFields_of_nonneg {w : Int} (hw : 0 ≤ w) :
    decodeFields w =
      ⟨tagOf (w % 100).toNat, (w / 100 % 10).toNat, (w / 1000 % 10).toNat, (w / 10000 % 10).toNat⟩ := by
  lift w to Nat using hw
  rw [decodeFields_natCast]
  norm_cast

/-- A digit beyond the leading one is 0 (30_encoding.md R64). -/
theorem digit_toNat_eq_zero_of_lt {w b : Int} (hw : 0 ≤ w) (hb : w < b) : (w / b % 10).toNat = 0 := by
  rw [Int.ediv_eq_zero_of_lt hw hb]
  rfl

/-- Settles O19: the fields are those of `decodeFields_of_nonneg`, and the tag depends on the word only by its
remainder modulo 100. -/
theorem fieldsAreDecimalDigits : Obligations.FieldsAreDecimalDigits := by
  intro w hw
  have digit_cast (b : Int) : ((w / b % 10).toNat : Int) = w / b % 10 :=
    Int.toNat_of_nonneg (Int.emod_nonneg _ (by decide))
  have tag_eq (u : Int) (hu : 0 ≤ u) (huw : u % 100 = w % 100) :
      (decodeFields u).tag = tagOf (w % 100).toNat := by
    rw [decodeFields_of_nonneg hu, huw]
  refine ⟨tag_eq w hw rfl, fun u hu huw => (tag_eq u hu huw).trans (tag_eq w hw rfl).symm, ?_⟩
  rw [decodeFields_of_nonneg hw]
  exact ⟨digit_cast 100, digit_cast 1000, digit_cast 10000, digit_toNat_eq_zero_of_lt hw,
    digit_toNat_eq_zero_of_lt hw, digit_toNat_eq_zero_of_lt hw⟩

end Sys2Proof.Machine
end

section
/-! SNAPSHOT, the next-pointer check and the input queue of the engine (spec 40_engine.md R110, R112, R117). -/

namespace Sys2Proof.Machine

/-- An accepted SNAPSHOT answers the words of memory and changes nothing (40_engine.md R117). -/
theorem hostTransact_snapshot_of_not_running {s : State} (hs : s.st ≠ .running) :
    hostTransact .snapshot s = (some (.snapshot s.mem.toWords), s) := if_neg hs

/-- A next pointer in [0, N] is written to ip (40_engine.md R110). -/
theorem setNext_of_inside {next : Int} {s : State} (h : 0 ≤ next ∧ next ≤ s.mem.size) :
    setNext next s = .next (s.setIp next.toNat) := if_pos h

/-- A next pointer outside [0, N] raises AddressOutOfBounds with that value (40_engine.md R110). -/
theorem setNext_of_outside {next : Int} {s : State} (h : ¬ (0 ≤ next ∧ next ≤ s.mem.size)) :
    setNext next s = .next (takeFault (.addressOutOfBounds next) s) := if_neg h

theorem setIp_onlyIpMoved {next : Int} (h : 0 ≤ next) (s : State) : OnlyIpMoved s (s.setIp next.toNat) next :=
  ⟨Int.toNat_of_nonneg h, rfl, rfl, rfl, rfl, rfl, rfl⟩

/-- The fetch of a Running core whose ip lies outside memory faults at ip (60_exceptions.md R202 a). -/
theorem step_of_fetch_outside {s : State} (hs : s.st = .running) (h : s.mem.read s.ip = none) :
    step s = .next (takeFault (.addressOutOfBounds s.ip) s) :=
  step_of_stepFault hs (by rw [stepFault, h])

/-- Of the instructions that complete only read-input changes IQ, by one pop (40_engine.md R112). -/
theorem Completes.iq {s t : State} {i : Instr} (h : Completes s i t) :
    t.iq = s.iq ∨ ∃ m1, i = .readInput m1 ∧ t.iq = (inPop s).2.iq := by
  cases h with
  | store => exact .inl rfl
  | input => exact .inr ⟨_, rfl, (inPop_iq s).symm⟩
  | output => exact .inl rfl
  | jump => exact .inl rfl
  | halt => exact .inl rfl

/-- Only a step that completes a read-input changes IQ, by one pop: an idle step and fault entry leave it. -/
theorem step_iq {s t : State} (h : step s = .next t) : t.iq = s.iq ∨
    ∃ w m1, s.st = .running ∧ s.mem.read s.ip = some w ∧ decode w = .ok (.readInput m1) ∧ stepFault s = none ∧
      t.iq = (inPop s).2.iq := by
  have hend := step_cases s
  rw [h] at hend
  cases hend with
  | idle => exact .inl rfl
  | fault => exact .inl rfl
  | run hs hw hd hf _ hx =>
    cases hx with
    | fault => exact .inl rfl
    | done _ hc =>
      obtain hkeep | ⟨m1, rfl, hpop⟩ := hc.iq
      · exact .inl hkeep
      · exact .inr ⟨_, m1, hs, hw, hd, hf, hpop⟩

/-- Settles O7: the answer is `Memory.toWords`, which lists every address below N in order. -/
theorem snapshotAnswersMemoryInOrder : Obligations.SnapshotAnswersMemoryInOrder := fun s hs =>
  ⟨s.mem.toWords, hostTransact_snapshot_of_not_running hs, s.mem.toWords_length, s.mem.toWords_getElem?⟩

/-- Settles O34: the two answers of `setNext`, and a fetch at N, which is the first address outside memory. -/
theorem nextPointerIsChecked : Obligations.NextPointerIsChecked := by
  intro next s
  refine ⟨fun hlow hhigh => ?_, fun hout => ?_, ?_⟩
  · exact ⟨_, setNext_of_inside ⟨hlow, hhigh⟩, setIp_onlyIpMoved hlow s⟩
  · exact ⟨_, setNext_of_outside (by omega), takeFault_entered (.addressOutOfBounds next) s⟩
  · rintro rfl hs
    have hread : s.mem.read s.mem.size = none := Memory.read_eq_none.2 fun hin => lt_irrefl _ hin.2
    have hfault := takeFault_entered (.addressOutOfBounds s.mem.size) (s.setIp s.mem.size)
    rw [State.setIp_mem, State.setIp_ip, hread] at hfault
    exact ⟨_, _, setNext_of_inside ⟨by omega, le_rfl⟩, step_of_fetch_outside hs hread, hfault⟩

/-- Settles O50: a pop takes the head and leaves the tail, and `step_iq` says which step pops. -/
theorem inputIsPoppedInOrder : Obligations.InputIsPoppedInOrder := by
  refine ⟨fun s v vs hq => ?_, fun s hq => ?_, fun s t => step_iq⟩
  · rw [inPop_value, inPop_iq, hq]
    exact ⟨rfl, rfl⟩
  · rw [inPop_value, inPop_iq, hq]
    exact ⟨rfl, rfl⟩

end Sys2Proof.Machine
end

section
/-! The decoder and the encoder as maps between the words and the instructions (spec 30_encoding.md R66 to R76).
`decode_natCast_eq_ok` says once what a word must be to decode to an instruction, `encode_eq` what word an instruction
has; every fact on the two together is arithmetic on those. -/

namespace Sys2Proof

/-- The opcode a legal tag stands for (30_encoding.md R69). -/
def Tag.opcode : Tag → Nat
  | .ADD => 1
  | .MUL => 2
  | .IN => 3
  | .OUT => 4
  | .JT => 5
  | .JF => 6
  | .LT => 7
  | .EQ => 8
  | .HALT => 99
  | .INVALID => 0

/-- The opcode map is injective where it is legal. -/
theorem opcode_tagOf {n : Nat} (h : tagOf n ≠ .INVALID) : (tagOf n).opcode = n := by
  unfold tagOf at h ⊢
  split <;> simp_all [Tag.opcode]

theorem tagOf_opcode (i : Instr) : (tagOf i.opcode).opcode = i.opcode := by cases i <;> rfl

theorem tagOf_opcode_ne_invalid (i : Instr) : tagOf i.opcode ≠ .INVALID := by
  cases i <;> simp [Instr.opcode, tagOf]

/-- A tag is that of an instruction's opcode exactly when it comes from that opcode. -/
theorem tagOf_eq_tagOf_opcode {n : Nat} {i : Instr} : tagOf n = tagOf i.opcode ↔ i.opcode = n :=
  ⟨fun h => by rw [← tagOf_opcode i, ← h, opcode_tagOf (h ▸ tagOf_opcode_ne_invalid i)], fun h => by rw [h]⟩

/-- The opcodes with a tag (30_encoding.md R69). -/
theorem tagOf_ne_invalid {n : Nat} : tagOf n ≠ .INVALID ↔ n ∈ [1, 2, 3, 4, 5, 6, 7, 8, 99] := by
  constructor
  · intro h
    rw [← opcode_tagOf h]
    generalize tagOf n = t at h
    cases t <;> simp_all [Tag.opcode]
  · intro h
    fin_cases h <;> decide

theorem exists_instr? {f : Fields} : (∃ i, f.instr? = some i) ↔ f.tag ≠ .INVALID := by
  obtain ⟨tag, m1, m2, m3⟩ := f
  cases tag <;> simp [Fields.instr?]

/-- The fields of an instruction: its opcode's tag, and its mode digits among the three reported (R67, R68). -/
theorem instr?_eq_some {tag : Tag} {a b c : Nat} {i : Instr} :
    (⟨tag, a, b, c⟩ : Fields).instr? = some i ↔
      tag = tagOf i.opcode ∧ i.modeDigits = [a, b, c].take i.paramCount := by
  constructor
  · intro h
    cases tag <;> cases h <;> exact ⟨rfl, rfl⟩
  · rintro ⟨rfl, h⟩
    cases i <;> cases h <;> rfl

/-- A non-negative word decodes to i exactly when it has i's opcode and i's mode digits (30_encoding.md R61 to R69). -/
theorem decode_natCast_eq_ok {n : Nat} {i : Instr} :
    decode n = .ok i ↔
      i.opcode = n % 100 ∧ i.modeDigits = [n / 100 % 10, n / 1000 % 10, n / 10000 % 10].take i.paramCount := by
  rw [decode_eq_ok, ← tagOf_eq_tagOf_opcode, ← instr?_eq_some]
  constructor
  · rintro ⟨k, hk, h⟩
    rwa [Int.natCast_inj.1 hk]
  · exact fun h => ⟨n, rfl, h⟩

/-- A word that decodes is non-negative (30_encoding.md R66). -/
theorem nonneg_of_decode_ok {w : Int} {i : Instr} (h : decode w = .ok i) : 0 ≤ w := by
  obtain ⟨n, rfl, -⟩ := decode_eq_ok.1 h
  exact Int.natCast_nonneg n

/-- The words that decode (30_encoding.md R66, R69). -/
theorem exists_decode_ok {w : Int} :
    (∃ i, decode w = .ok i) ↔ 0 ≤ w ∧ w % 100 ∈ [1, 2, 3, 4, 5, 6, 7, 8, (99 : Int)] := by
  by_cases hw : 0 ≤ w
  · lift w to Nat using hw
    have hmem : (w : Int) % 100 ∈ [1, 2, 3, 4, 5, 6, 7, 8, (99 : Int)] ↔ w % 100 ∈ [1, 2, 3, 4, 5, 6, 7, 8, 99] := by
      simp only [List.mem_cons, List.not_mem_nil, or_false]
      omega
    simp only [hmem, ← tagOf_ne_invalid, Int.natCast_nonneg, true_and, decode_eq_ok, Int.natCast_inj,
      exists_eq_left']
    exact exists_instr?
  · exact iff_of_false (fun ⟨_, hi⟩ => hw (nonneg_of_decode_ok hi)) (fun h => hw h.1)

/-! ### The encoded word -/

theorem length_modeDigits (i : Instr) : i.modeDigits.length = i.paramCount := by cases i <;> rfl

/-- An instruction has at most three mode digits (30_encoding.md R70). -/
theorem modeDigits_cases (i : Instr) :
    i.modeDigits = [] ∨ (∃ a, i.modeDigits = [a]) ∨ (∃ a b, i.modeDigits = [a, b]) ∨
      ∃ a b c, i.modeDigits = [a, b, c] := by
  cases i <;> simp [Instr.modeDigits]

theorem opcode_le (i : Instr) : i.opcode ≤ 99 := by cases i <;> simp [Instr.opcode]

/-- The encoded word is its opcode and mode digits, an unused digit being 0 (30_encoding.md R75). -/
theorem encode_eq (i : Instr) :
    encode i =
      i.opcode + 100 * i.modeDigits.getD 0 0 + 1000 * i.modeDigits.getD 1 0 + 10000 * i.modeDigits.getD 2 0 := by
  cases i <;> rfl

/-- Decoding inverts encoding when each mode digit is one decimal digit (30_encoding.md R63, R75). -/
theorem decode_encode {i : Instr} (h : ∀ d ∈ i.modeDigits, d ≤ 9) : decode (encode i) = .ok i := by
  have hop := opcode_le i
  rw [encode_eq]
  norm_cast
  rw [decode_natCast_eq_ok, ← length_modeDigits]
  obtain hd | ⟨a, hd⟩ | ⟨a, b, hd⟩ | ⟨a, b, c, hd⟩ := modeDigits_cases i <;> rw [hd] at h ⊢ <;>
    simp at h ⊢ <;> omega

/-- A decoded instruction has one decimal digit per mode, and its encoded word is the decoded word without its ignored
digits (30_encoding.md R63, R68, R75). -/
theorem encode_of_decode_ok {w : Int} {i : Instr} (h : decode w = .ok i) :
    (∀ d ∈ i.modeDigits, d ≤ 9) ∧ encode i = w % 10 ^ (i.length + 1) := by
  have hw := nonneg_of_decode_ok h
  lift w to Nat using hw
  obtain ⟨hop, hds⟩ := decode_natCast_eq_ok.1 h
  rw [encode_eq, Instr.length]
  rw [← length_modeDigits] at hds ⊢
  obtain hd | ⟨a, hd⟩ | ⟨a, b, hd⟩ | ⟨a, b, c, hd⟩ := modeDigits_cases i <;> rw [hd] at hds ⊢ <;>
    simp at hds ⊢ <;> omega

theorem wellFormed_iff {i : Instr} : i.wellFormed = true ↔ ∀ d ∈ i.modeDigits, d ≤ 9 := by
  simp [Instr.wellFormed]

/-- Two words with equal digits below weight 10^(p + 2), p the instruction's parameter count, decode alike
(30_encoding.md R68). -/
theorem decode_congr {w u : Int} {i : Instr} (h : decode w = .ok i) (hu : 0 ≤ u)
    (huw : u % 10 ^ (i.length + 1) = w % 10 ^ (i.length + 1)) : decode u = .ok i := by
  have hw := nonneg_of_decode_ok h
  lift w to Nat using hw
  lift u to Nat using hu
  obtain ⟨hop, hds⟩ := decode_natCast_eq_ok.1 h
  rw [decode_natCast_eq_ok]
  rw [Instr.length] at huw
  rw [← length_modeDigits] at hds huw ⊢
  obtain hd | ⟨a, hd⟩ | ⟨a, b, hd⟩ | ⟨a, b, c, hd⟩ := modeDigits_cases i <;> rw [hd] at hds huw ⊢ <;>
    simp at hds huw ⊢ <;> omega

/-! ### Assembly -/

theorem asmParam_digit_le (p : AsmParam) : p.digit ≤ 9 := by
  obtain ⟨_ | _, n⟩ := p <;> simp [AsmParam.digit, Mode.digit]

/-- The instruction a mnemonic stands for, its slot words being apart (30_encoding.md R76). -/
theorem decode_encode_asm {i : Instr} {ps : List AsmParam} (h : i.modeDigits = ps.map AsmParam.digit) :
    decode (encode i) = .ok i := by
  refine decode_encode fun d hd => ?_
  rw [h] at hd
  obtain ⟨p, -, rfl⟩ := List.mem_map.1 hd
  exact asmParam_digit_le p

/-- A line whose address check holds puts its words before those of the rest (30_encoding.md R76). -/
theorem assembleFrom_cons {p : Nat} {pre : Option Nat} (h : pre = none ∨ pre = some p) (b : AsmBody)
    (ls : List AsmLine) :
    assembleFrom p (⟨pre, b⟩ :: ls) = (assembleFrom (p + b.assemble.length) ls).map (b.assemble ++ ·) := by
  rcases h with rfl | rfl <;> simp [assembleFrom]

/-- A line whose address check is wrong fails (30_encoding.md R76). -/
theorem assembleFrom_cons_of_ne {p n : Nat} (h : n ≠ p) (b : AsmBody) (ls : List AsmLine) :
    assembleFrom p (⟨some n, b⟩ :: ls) = none := by
  simp [assembleFrom, h]

end Sys2Proof

namespace Sys2Proof.Machine

/-- Settles O22: a digit of at most 9 is read back from the place the encoder put it. -/
theorem decodeInvertsEncode : Obligations.DecodeInvertsEncode :=
  fun _ h => decode_encode (wellFormed_iff.1 h)

/-- Settles O20. -/
theorem opcodeMapIsClosed : Obligations.OpcodeMapIsClosed := by
  refine fun w => ⟨exists_decode_ok, fun i h => ?_⟩
  have hw := nonneg_of_decode_ok h
  lift w to Nat using hw
  exact_mod_cast (decode_natCast_eq_ok.1 h).1

/-- Settles O21: the opcode and the used mode digits are digits below weight 10^(length + 1). -/
theorem unusedDigitsAreIgnored : Obligations.UnusedDigitsAreIgnored :=
  fun _ _ _ h hu huw => decode_congr h hu huw

/-- Settles O23. -/
theorem encodeInvertsDecodeUpToIgnoredDigits : Obligations.EncodeInvertsDecodeUpToIgnoredDigits := fun _ _ h =>
  have ⟨hdigits, hword⟩ := encode_of_decode_ok h
  ⟨wellFormed_iff.2 hdigits, hword⟩

/-- Settles O24: the formula is `encode_eq`, and three digits of at most 1 add at most 11100 to an opcode. -/
theorem canonicalWordIsBelow11200 : Obligations.CanonicalWordIsBelow11200 := by
  intro i hi
  have hop := opcode_le i
  refine ⟨encode_eq i, ?_⟩
  rw [encode_eq]
  unfold LegalModes at hi
  obtain hd | ⟨a, hd⟩ | ⟨a, b, hd⟩ | ⟨a, b, c, hd⟩ := modeDigits_cases i <;> rw [hd] at hi ⊢ <;>
    simp at hi ⊢ <;> omega

/-- Settles O25, by running the decoder. -/
theorem vectorWordsDecode : Obligations.VectorWordsDecode := by
  unfold Obligations.VectorWordsDecode
  decide

/-- Settles O26: each mnemonic's word is an encoded instruction with digits 0 and 1, and the rest is the recursion of
`assembleFrom`. -/
theorem assembledLineIsItsInstruction : Obligations.AssembledLineIsItsInstruction := by
  refine ⟨fun a b d => ⟨?_, ?_, ?_, ?_, ?_, ?_, ?_, ?_, ?_⟩, fun _ => rfl, fun _ => rfl,
    fun p pre b ls h => ?_, fun p n b ls h => assembleFrom_cons_of_ne h b ls⟩
  · exact ⟨_, rfl, decode_encode_asm (ps := [a, b, d]) rfl⟩
  · exact ⟨_, rfl, decode_encode_asm (ps := [a, b, d]) rfl⟩
  · exact ⟨_, rfl, decode_encode_asm (ps := [a, b, d]) rfl⟩
  · exact ⟨_, rfl, decode_encode_asm (ps := [a, b, d]) rfl⟩
  · exact ⟨_, rfl, decode_encode_asm (ps := [a, b]) rfl⟩
  · exact ⟨_, rfl, decode_encode_asm (ps := [a, b]) rfl⟩
  · exact ⟨_, rfl, decode_encode_asm (ps := [d]) rfl⟩
  · exact ⟨_, rfl, decode_encode_asm (ps := [a]) rfl⟩
  · exact ⟨_, rfl, decode_encode_asm (ps := []) rfl⟩
  · rw [assembleFrom_cons h]
    exact ⟨fun rest hrest => by rw [hrest]; rfl, fun hnone => by rw [hnone]; rfl⟩

end Sys2Proof.Machine
end

section
/-! What a next state is, said once: `exec_next_cases` for an instruction and `step_next_cases` for a step, and the
fields of a completed instruction's next state. -/

namespace Sys2Proof.Machine

/-- The next states of an instruction: fault entry, or what it leaves when it completes. -/
theorem exec_next_cases {s t : State} {i : Instr} (h : exec i s = .next t) :
    (∃ r, instrFault s i = some r ∧ t = takeFault r s) ∨ instrFault s i = none ∧ Completes s i t := by
  have hend := exec_cases s i
  rw [h] at hend
  cases hend with
  | fault hf => exact .inl ⟨_, hf, rfl⟩
  | done hf hc => exact .inr ⟨hf, hc⟩

/-- The next states of a step: the same state when idle, fault entry, or what the fetched instruction leaves. -/
theorem step_next_cases {s t : State} (h : step s = .next t) :
    (s.st ≠ .running ∧ t = s) ∨
      (s.st = .running ∧ ∃ r, stepFault s = some r ∧ t = takeFault r s) ∨
      (s.st = .running ∧ stepFault s = none ∧
        ∃ w i, s.mem.read s.ip = some w ∧ decode w = .ok i ∧ Completes s i t) := by
  have hend := step_cases s
  rw [h] at hend
  cases hend with
  | idle hs => exact .inl ⟨hs, rfl⟩
  | fault hs hf => exact .inr (.inl ⟨hs, _, hf, rfl⟩)
  | run hs hw hd hf he hx =>
    cases hx with
    | fault hi => exact absurd hf (by simp [stepFault, hw, hd, hi])
    | done _ hc => exact .inr (.inr ⟨hs, hf, _, _, hw, hd, hc⟩)

/-- The fault of a step that fetches and decodes is its instruction's. -/
theorem stepFault_of_decode {s : State} {w : Int} {i : Instr} (hw : s.mem.read s.ip = some w)
    (hd : decode w = .ok i) : stepFault s = instrFault s i := by
  simp only [stepFault, hw, hd]

/-! ### A completed instruction, field by field -/

theorem Completes.cfg {s t : State} {i : Instr} (h : Completes s i t) : t.cfg = s.cfg := by cases h <;> rfl

theorem Completes.fr {s t : State} {i : Instr} (h : Completes s i t) : t.fr = s.fr := by cases h <;> rfl

/-- Only halt changes ST (40_engine.md R102). -/
theorem Completes.st {s t : State} {i : Instr} (h : Completes s i t) :
    t.st = if i = .halt then .halted else s.st := by
  cases h with
  | halt => rfl
  | store hi => exact (if_neg fun e => nomatch e ▸ hi).symm
  | input => rfl
  | output => rfl
  | jump hi => exact (if_neg fun e => nomatch e ▸ hi).symm

/-- Only write-output changes OQ, and appends its operand (40_engine.md R113). -/
theorem Completes.oq_cases {s t : State} {i : Instr} (h : Completes s i t) :
    (∀ m1, i ≠ .writeOutput m1) ∧ t.oq = s.oq ∨
      ∃ m1 v, i = .writeOutput m1 ∧ IsOperand s 1 m1 v ∧ t.oq = s.oq ++ [v] := by
  cases h with
  | output hv => exact .inr ⟨_, _, rfl, hv, rfl⟩
  | store hi => exact .inl ⟨fun _ e => (nomatch e ▸ hi), rfl⟩
  | input => exact .inl ⟨nofun, rfl⟩
  | jump hi => exact .inl ⟨fun _ e => (nomatch e ▸ hi), rfl⟩
  | halt => exact .inl ⟨nofun, rfl⟩

/-- Only read-input changes IQ, and leaves the tail (40_engine.md R112). -/
theorem Completes.iq_cases {s t : State} {i : Instr} (h : Completes s i t) :
    (∀ m1, i ≠ .readInput m1) ∧ t.iq = s.iq ∨ ∃ m1, i = .readInput m1 ∧ t.iq = s.iq.tail := by
  cases h with
  | input => exact .inr ⟨_, rfl, rfl⟩
  | store hi => exact .inl ⟨fun _ e => (nomatch e ▸ hi), rfl⟩
  | output => exact .inl ⟨nofun, rfl⟩
  | jump hi => exact .inl ⟨fun _ e => (nomatch e ▸ hi), rfl⟩
  | halt => exact .inl ⟨nofun, rfl⟩

/-- A jump stores nothing. -/
theorem storedAddress_of_roles_read_read {i : Instr} (h : i.roles = [.read, .read]) (s : State) :
    storedAddress s i = none := by
  cases i <;> simp_all [Instr.roles, storedAddress]

/-- Memory changes only by one write to the instruction's resolved destination (40_engine.md R107). -/
theorem Completes.mem {s t : State} {i : Instr} (h : Completes s i t) :
    (storedAddress s i = none ∧ t.mem = s.mem) ∨
      ∃ d v, storedAddress s i = some d ∧ s.mem.write d v = some t.mem := by
  cases h with
  | store _ hd hm => exact .inr ⟨_, _, hd, hm⟩
  | input hd hm => exact .inr ⟨_, _, hd, hm⟩
  | output => exact .inl ⟨rfl, rfl⟩
  | jump hi => exact .inl ⟨storedAddress_of_roles_read_read hi s, rfl⟩
  | halt => exact .inl ⟨rfl, rfl⟩

theorem Completes.size {s t : State} {i : Instr} (h : Completes s i t) : t.mem.size = s.mem.size := by
  obtain ⟨-, e⟩ | ⟨d, v, -, hw⟩ := h.mem
  · rw [e]
  · exact Memory.write_size hw

/-- ip never leaves [0, N] (10_state.md R22). -/
theorem Completes.ip_le {s t : State} {i : Instr} (h : Completes s i t) (hs : s.ip ≤ s.mem.size) :
    t.ip ≤ t.mem.size := by
  rw [h.size]
  cases h with
  | store _ _ _ _ hn => exact hn
  | input _ _ hn => exact hn
  | output _ _ hn => exact hn
  | jump _ hp => exact hp
  | halt => exact hs

/-- A completed instruction leaves memory canonical and full of words (10_state.md R20). -/
theorem Completes.mem_legal {s t : State} {i : Instr} (h : Completes s i t) (hs : s.Wf) : Memory.Legal s.cfg t.mem := by
  obtain ⟨⟨hW, -⟩, ⟨hwf, hsize, hcells⟩, -, ⟨hiq, -⟩, -⟩ := hs
  have legal_of_write {d v : Int} {m : Memory} (hv : IsWord s.cfg.W v) (hm : s.mem.write d v = some m) :
      Memory.Legal s.cfg m :=
    ⟨Memory.write_wf hwf hm, (Memory.write_size hm).trans_le hsize, Memory.write_cells_isWord hcells hv hm⟩
  cases h with
  | store _ _ hm hv => exact legal_of_write (hv (by omega)) hm
  | input _ hm =>
    refine legal_of_write ?_ hm
    cases hq : s.iq with
    | nil => exact zero_isWord _
    | cons v vs => exact hiq v (by simp [hq])
  | output => exact ⟨hwf, hsize, hcells⟩
  | jump => exact ⟨hwf, hsize, hcells⟩
  | halt => exact ⟨hwf, hsize, hcells⟩

/-- A completed instruction leaves the queues full of words and within their capacities (10_state.md R23, R24). -/
theorem Completes.queuesLegal {s t : State} {i : Instr} (h : Completes s i t) (hs : s.Wf) : QueuesLegal t := by
  obtain ⟨-, ⟨-, -, hcells⟩, -, ⟨hiq, hiqLen, hoq, hoqLen⟩, -⟩ := hs
  cases h with
  | store => exact ⟨hiq, hiqLen, hoq, hoqLen⟩
  | input =>
    have htail : s.iq.tail.length ≤ s.iq.length := by simp
    exact ⟨fun v hv => hiq v (List.mem_of_mem_tail hv), htail.trans hiqLen, hoq, hoqLen⟩
  | output hv hroom =>
    have hword := hv.isWord hcells
    refine ⟨hiq, hiqLen, fun x hx => ?_, fun c hc => ?_⟩
    · rcases List.mem_append.1 hx with hx | hx
      · exact hoq x hx
      · exact List.mem_singleton.1 hx ▸ hword
    · simpa using hroom c hc
  | jump => exact ⟨hiq, hiqLen, hoq, hoqLen⟩
  | halt => exact ⟨hiq, hiqLen, hoq, hoqLen⟩

end Sys2Proof.Machine
end

section
/-! The invariant `State.Wf` (spec 10_state.md R20 to R26): it holds at power-on, and every step and every host
transaction keeps it. -/

namespace Sys2Proof.Machine

/-- The address the fault of a step records is a word. -/
theorem stepFault_isWord {s : State} (h : s.Wf) {r : Raise} (hf : stepFault s = some r) :
    ∀ a ∈ r.addr, IsWord s.cfg.W a := by
  cases hw : s.mem.read s.ip with
  | none =>
    simp only [stepFault, hw, Option.some.injEq] at hf
    subst hf
    simp only [Raise.addr, Option.mem_some_iff, forall_eq']
    obtain ⟨hcfg, ⟨-, hsize, -⟩, hip, -⟩ := h
    exact natCast_isWord hcfg (hip.trans hsize)
  | some w =>
    cases hd : decode w with
    | error j =>
      simp only [stepFault, hw, hd, Option.some.injEq] at hf
      subst hf
      simp [Raise.addr]
    | ok i =>
      rw [stepFault_of_decode hw hd] at hf
      exact instrFault_isWord h (by exact_mod_cast (Memory.read_eq_some.1 hw).1.2) hf

/-- A Running core that completes an instruction keeps what ST says of the rest of the state. -/
theorem Completes.statusCoherent {s t : State} {w : Int} {i : Instr} (h : Completes s i t) (hs : s.st = .running)
    (hw : s.mem.read s.ip = some w) (hd : decode w = .ok i) (hcoh : StatusCoherent s) : StatusCoherent t := by
  obtain ⟨hfr, -⟩ := hcoh
  have hkind : s.fr.kind = .none := by simpa [hs] using hfr
  have hst := h.st
  rw [hs] at hst
  by_cases hi : i = .halt
  · subst hi
    cases h with
    | halt => exact ⟨by simp [hkind], by simp, fun _ => by simp [hw, hd, Except.toOption], by simp⟩
    | store hroles => cases hroles
    | jump hroles => cases hroles
  · rw [if_neg hi] at hst
    simp [StatusCoherent, hst, h.fr, hkind]

/-- A Running core that completes an instruction keeps the invariant. -/
theorem Completes.wf {s t : State} {w : Int} {i : Instr} (h : Completes s i t) (hwf : s.Wf) (hs : s.st = .running)
    (hw : s.mem.read s.ip = some w) (hd : decode w = .ok i) : t.Wf := by
  have hmem := h.mem_legal hwf
  have hqueues := h.queuesLegal hwf
  obtain ⟨hcfg, -, hip, -, hfr, hcoh⟩ := hwf
  rw [← h.cfg] at hcfg hmem hfr
  rw [← h.fr] at hfr
  exact ⟨hcfg, hmem, h.ip_le hip, hqueues, hfr, h.statusCoherent hs hw hd hcoh⟩

theorem clear_wf (W : Nat) : FaultRecord.clear.Wf W := ⟨by decide, fun _ => rfl, zero_isWord _, nofun, nofun⟩

/-- An accepted LOAD makes the invariant hold, for all parameters that meet R7 (70_reset_and_hazards.md R231). -/
theorem loadState_wf {p : List Int} {s : State} (hc : s.cfg.Wf) (hp : LoadAccepted p s) : (loadState p s).Wf := by
  obtain ⟨-, hlen, hwords⟩ := hp
  refine ⟨hc, ⟨Memory.ofWords_wf p, hlen, fun c hmem => ?_⟩, Nat.zero_le _,
    ⟨nofun, Nat.zero_le _, nofun, fun _ _ => Nat.zero_le _⟩, clear_wf _, ?_⟩
  · obtain ⟨-, -, -, hword⟩ := mem_cellsOfWords hmem
    exact hwords _ hword
  · exact ⟨by simp [loadState, FaultRecord.clear], nofun, nofun, fun _ => ⟨rfl, rfl, rfl⟩⟩

/-- Power-on is an accepted LOAD of the empty program (70_reset_and_hazards.md R230). -/
theorem powerOn_wf {c : Config} (hc : c.Wf) : (State.powerOn c).Wf :=
  loadState_wf (p := []) (s := State.powerOn c) hc ⟨nofun, Nat.zero_le _, nofun⟩

/-- An accepted RUN keeps the invariant (70_reset_and_hazards.md R233). -/
theorem runState_wf {inputs : List Int} {s : State} (h : s.Wf) (hr : RunAccepted inputs s) :
    (runState inputs s).Wf := by
  obtain ⟨-, hlen, hwords⟩ := hr
  obtain ⟨hcfg, hmem, -⟩ := h
  exact ⟨hcfg, hmem, Nat.zero_le _, ⟨hwords, hlen, nofun, fun _ _ => Nat.zero_le _⟩, clear_wf _,
    by simp [runState, FaultRecord.clear], nofun, nofun, nofun⟩

/-- SNAPSHOT and STATUS change nothing, and a transaction that is refused changes nothing: only an accepted LOAD or RUN
has another state after it (40_engine.md R117 to R119; 70_reset_and_hazards.md R232, R233). -/
theorem hostTransact_state_cases (cmd : HostCommand) (s : State) :
    (hostTransact cmd s).2 = s ∨
      (∃ p, cmd = .load p ∧ LoadAccepted p s ∧ (hostTransact cmd s).2 = loadState p s) ∨
      ∃ q, cmd = .run q ∧ RunAccepted q s ∧ (hostTransact cmd s).2 = runState q s := by
  cases cmd with
  | load p =>
    obtain ⟨hp, e⟩ | ⟨-, e⟩ := hostTransact_load_cases p s <;> rw [e]
    · exact .inr (.inl ⟨p, rfl, hp, rfl⟩)
    · exact .inl rfl
  | run q =>
    obtain ⟨hq, e⟩ | ⟨-, e⟩ := hostTransact_run_cases q s <;> rw [e]
    · exact .inr (.inr ⟨q, rfl, hq, rfl⟩)
    · exact .inl rfl
  | snapshot => exact .inl (by simp only [hostTransact, apply_ite Prod.snd, ite_self])
  | status => exact .inl (by simp only [hostTransact, apply_ite Prod.snd, ite_self])

/-- No host transaction writes the parameters (00_scope.md R7). -/
theorem hostTransact_cfg (cmd : HostCommand) (s : State) : (hostTransact cmd s).2.cfg = s.cfg := by
  obtain e | ⟨p, -, -, e⟩ | ⟨q, -, -, e⟩ := hostTransact_state_cases cmd s <;> rw [e] <;> rfl

/-- Settles O55: an idle step changes nothing, fault entry records words, and `Completes.wf` is the rest. -/
theorem stepKeepsInvariant : Obligations.StepKeepsInvariant := by
  intro s t hs h
  obtain ⟨-, rfl⟩ | ⟨-, r, hf, rfl⟩ | ⟨hrun, -, w, i, hw, hd, hc⟩ := step_next_cases h
  · exact hs
  · exact takeFault_wf hs (stepFault_isWord hs hf)
  · exact hc.wf hs hrun hw hd

/-- Settles O56: only an accepted LOAD or RUN changes the state. -/
theorem hostKeepsInvariant : Obligations.HostKeepsInvariant := by
  intro cmd s hs
  obtain e | ⟨p, -, hp, e⟩ | ⟨q, -, hq, e⟩ := hostTransact_state_cases cmd s <;> rw [e]
  · exact hs
  · exact loadState_wf hs.1 hp
  · exact runState_wf hs hq

/-- Settles O57, by induction on how the state is reached. -/
theorem reachableStatesMeetInvariant : Obligations.ReachableStatesMeetInvariant := by
  intro c s hc h
  induction h with
  | powerOn => exact ⟨powerOn_wf hc, rfl⟩
  | step _ hstep ih => exact ⟨stepKeepsInvariant _ _ ih.1 hstep, (step_keeps_cfg_size hstep).1.trans ih.2⟩
  | host cmd _ ih => exact ⟨hostKeepsInvariant cmd _ ih.1, (hostTransact_cfg cmd _).trans ih.2⟩

/-- Settles O2: the reference parameters meet R7. -/
theorem powerOnMeetsInvariant : Obligations.PowerOnMeetsInvariant :=
  ⟨fun _ hc => powerOn_wf hc, powerOn_wf (by decide)⟩

end Sys2Proof.Machine
end

section
/-! Power-on and the host's transactions: what each accepted one sets, and when each is refused (spec 40_engine.md R118,
R119; 70_reset_and_hazards.md R230 to R235). -/

namespace Sys2Proof.Machine

theorem hostTransact_load_of_accepted {p : List Int} {s : State} (h : LoadAccepted p s) :
    hostTransact (.load p) s = (some .accepted, loadState p s) := if_pos h

theorem hostTransact_load_of_refused {p : List Int} {s : State} (h : ¬ LoadAccepted p s) :
    hostTransact (.load p) s = (some .refused, s) := if_neg h

theorem hostTransact_run_of_accepted {q : List Int} {s : State} (h : RunAccepted q s) :
    hostTransact (.run q) s = (none, runState q s) := if_pos h

theorem hostTransact_run_of_refused {q : List Int} {s : State} (h : ¬ RunAccepted q s) :
    hostTransact (.run q) s = (some .refused, s) := if_neg h

theorem hostTransact_status_of_not_running {s : State} (h : s.st ≠ .running) :
    hostTransact .status s = (some (.status s.st (visibleFaultRecord s) (visibleIp s)), s) := if_neg h

/-- The three cases in which LOAD is refused (70_reset_and_hazards.md R232). -/
theorem not_loadAccepted {p : List Int} {s : State} :
    ¬ LoadAccepted p s ↔ s.st = .running ∨ s.cfg.NMAX < p.length ∨ ∃ v ∈ p, ¬ IsWord s.cfg.W v := by
  unfold LoadAccepted
  rw [not_and_or, not_and_or, not_not, not_le, not_forall]
  simp only [not_forall, exists_prop]

/-- The three cases in which RUN is refused (70_reset_and_hazards.md R233). -/
theorem not_runAccepted {q : List Int} {s : State} :
    ¬ RunAccepted q s ↔ s.st = .running ∨ s.cfg.IQ_CAP < q.length ∨ ∃ v ∈ q, ¬ IsWord s.cfg.W v := by
  unfold RunAccepted
  rw [not_and_or, not_and_or, not_not, not_le, not_forall]
  simp only [not_forall, exists_prop]

/-- The empty program can be loaded into any core that is not Running (70_reset_and_hazards.md R232). -/
theorem loadAccepted_nil {s : State} (h : s.st ≠ .running) : LoadAccepted [] s := ⟨h, Nat.zero_le _, nofun⟩

/-- Memory of no cells answers no read. -/
theorem Memory.read_of_size_eq_zero {m : Memory} (h : m.size = 0) (a : Int) : m.read a = none :=
  Memory.read_eq_none.2 fun ⟨hlow, hhigh⟩ => by omega

/-- Without a LOAD memory keeps its power-on length, 0. -/
theorem NeverLoaded.size_eq_zero {c : Config} {s : State} (h : NeverLoaded c s) : s.mem.size = 0 := by
  induction h with
  | powerOn => rfl
  | step _ hstep ih => exact (step_keeps_cfg_size hstep).2.trans ih
  | host cmd hcmd _ ih => rw [hostTransact_mem_of_ne_load hcmd, ih]

/-- Settles O1: LOAD of the empty program gives back the power-on state, and `State.reset` has the reference
parameters. -/
theorem powerOnIsLoadOfTheEmptyProgram : Obligations.PowerOnIsLoadOfTheEmptyProgram := by
  refine ⟨fun c => ⟨rfl, rfl, Memory.read_of_size_eq_zero rfl, rfl, rfl, rfl, rfl, rfl, rfl, rfl, ?_⟩,
    Config.reference, rfl, by decide, rfl, rfl⟩
  exact hostTransact_load_of_accepted (loadAccepted_nil nofun)

/-- Settles O3: the fields of `loadState`, whose memory reads as the program. -/
theorem acceptedLoadSetsEverything : Obligations.AcceptedLoadSetsEverything := by
  refine ⟨fun p s hp => ?_, fun cmd s hcmd => hostTransact_mem_of_ne_load hcmd s⟩
  exact ⟨loadState p s, hostTransact_load_of_accepted hp, Memory.read_ofWords p, rfl, rfl, rfl, rfl, rfl, rfl, rfl,
    rfl, rfl⟩

/-- Settles O4: LOAD is refused exactly when it is not accepted. -/
theorem loadIsRefusedInThreeCases : Obligations.LoadIsRefusedInThreeCases := by
  intro p s
  rw [← not_loadAccepted]
  refine ⟨⟨hostTransact_load_of_refused, fun h hp => ?_⟩, fun h => ?_, fun hs => ?_⟩
  · rw [hostTransact_load_of_accepted hp] at h
    cases h
  · obtain ⟨hp, e⟩ | ⟨-, e⟩ := hostTransact_load_cases p s
    · rw [e] at h
      cases h
    · rw [e]
  · rw [hostTransact_load_of_accepted (loadAccepted_nil hs)]

/-- Settles O5: the fields of `runState`, and `not_runAccepted`. -/
theorem runStartsAtZeroOrIsRefused : Obligations.RunStartsAtZeroOrIsRefused := by
  refine fun q s => ⟨fun hst hwords hlen => ?_, fun h => hostTransact_run_of_refused (not_runAccepted.2 ?_)⟩
  · have hs : s.st ≠ .running := by
      rintro hs
      simp [hs] at hst
    exact ⟨runState q s, hostTransact_run_of_accepted ⟨hs, hlen, hwords⟩, rfl, rfl, rfl, rfl, rfl, rfl, rfl, rfl, rfl⟩
  · exact h.imp_right Or.symm

/-- Settles O6: acceptance and `runState` look at the parameters and memory only. -/
theorem runForgetsEarlierRuns : Obligations.RunForgetsEarlierRuns := by
  intro q s s' hcfg hmem hs hs'
  have haccept : RunAccepted q s ↔ RunAccepted q s' := by
    unfold RunAccepted
    rw [hcfg]
    exact and_congr_left' (iff_of_true hs hs')
  by_cases hq : RunAccepted q s
  · simp only [hostTransact_run_of_accepted hq, hostTransact_run_of_accepted (haccept.1 hq)]
    exact ⟨trivial, fun _ => ⟨hmem, rfl, rfl, rfl, rfl, hcfg, rfl, rfl, rfl⟩⟩
  · simp only [hostTransact_run_of_refused hq, hostTransact_run_of_refused (mt haccept.2 hq)]
    exact ⟨trivial, nofun⟩

/-- Settles O8: what STATUS shows in each of the three statuses in which it is accepted. -/
theorem statusShowsRecordWhenFaulted : Obligations.StatusShowsRecordWhenFaulted := by
  intro s hs
  rw [hostTransact_status_of_not_running hs, visibleFaultRecord, visibleIp]
  refine ⟨fun h => ?_, fun h => ?_, fun h => ?_⟩ <;> rw [h] <;> rfl

/-- Settles O9: each of the four transactions asks for a core that is not Running. -/
theorem hostHasNoMoveWhileRunning : Obligations.HostHasNoMoveWhileRunning := by
  intro cmd s hs
  cases cmd with
  | load p => exact hostTransact_load_of_refused fun h => h.1 hs
  | run q => exact hostTransact_run_of_refused fun h => h.1 hs
  | snapshot => exact if_pos hs
  | status => exact if_pos hs

/-- Settles O11: the program stays empty, so the first fetch, at 0, is outside memory. -/
theorem runWithoutLoadFaultsAtZero : Obligations.RunWithoutLoadFaultsAtZero := by
  refine ⟨fun _ _ => NeverLoaded.size_eq_zero, fun q s hsize hq => ?_⟩
  have hread : (runState q s).mem.read (runState q s).ip = none := Memory.read_of_size_eq_zero hsize _
  have hstep := step_of_fetch_outside rfl hread
  have hfault := takeFault_entered (.addressOutOfBounds (runState q s).ip) (runState q s)
  rw [hread] at hfault
  exact ⟨_, _, hostTransact_run_of_accepted hq, hstep, hfault, rfl, rfl, stepAnswer_of_next rfl hstep⟩

end Sys2Proof.Machine
end

section
/-! Reads after writes, and the canonical form of memory (spec 20_memory.md R42, R50). -/

namespace Sys2Proof.Machine

/-- A destination the resolver answers lies inside memory (30_encoding.md R74). -/
theorem inBounds_of_writeAddr_ok {s : State} {k : Nat} {m : Mode} {a : Int} (h : writeAddr s k m = .ok a) :
    s.mem.InBounds a := by
  cases m with
  | position =>
    cases hread : memRead s (slot s k) with
    | error r => simp [writeAddr, hread] at h
    | ok b =>
      simp only [writeAddr, hread] at h
      obtain ⟨hb, rfl⟩ := checkAddress_ok.1 h
      exact hb
  | immediate =>
    obtain ⟨hb, rfl⟩ := checkAddress_ok.1 h
    exact hb

theorem memWrite_of_inBounds {s : State} {a : Int} (h : s.mem.InBounds a) (v : Int) :
    ∃ m, s.mem.write a v = some m ∧ memWrite s a v = .ok (s.setMem m) :=
  ⟨_, Memory.write_eq_some.2 ⟨h, rfl⟩, memWrite_ok.2 ⟨_, Memory.write_eq_some.2 ⟨h, rfl⟩, rfl⟩⟩

/-- A checked read is a function of the port's answer. -/
theorem memRead_congr {s t : State} {a : Int} (h : s.mem.read a = t.mem.read a) : memRead s a = memRead t a := by
  rw [memRead, memRead, h]

/-- A canonical memory has no cell listed at N or above, so its cells read as unlisted there. -/
theorem cellsRead_of_size_le {m : Memory} (hm : m.wf) {a : Nat} (ha : m.size ≤ a) :
    cellsRead m.cells a = unlistedWord := by
  obtain ⟨-, -, hbelow⟩ := hm
  generalize m.cells = cs at hbelow
  induction cs with
  | nil => rfl
  | cons c cs ih =>
    have hc := hbelow c (by simp)
    rw [cellsRead, if_neg (by omega), ih fun d hd => hbelow d (by simp [hd])]

/-- A canonical memory's cells read as unlisted exactly where the port does not say otherwise. -/
theorem cellsRead_eq_getD_read {m : Memory} (hm : m.wf) (a : Nat) :
    cellsRead m.cells a = (m.read a).getD unlistedWord := by
  by_cases ha : m.size ≤ a
  · rw [cellsRead_of_size_le hm ha, Memory.read_eq_none.2 fun ⟨_, hhigh⟩ => by omega]
    rfl
  · rw [Memory.read_eq_some.2 ⟨⟨Int.natCast_nonneg a, by omega⟩, rfl⟩]
    rfl

/-- Settles O13: `Memory.read_write` is what later reads see. -/
theorem memWriteThenRead : Obligations.MemWriteThenRead := by
  intro s a v hwf
  refine ⟨fun ha => ?_, fun ha => memWrite_error.2 ⟨ha, rfl⟩, fun k m h => ?_⟩
  · obtain ⟨m, hm, e⟩ := memWrite_of_inBounds ha v
    have hread := Memory.read_write hwf.1 hm
    refine ⟨s.setMem m, e, memRead_ok.2 ((hread a).trans (if_pos rfl)), fun b hb => ?_, Memory.write_size hm,
      rfl, rfl, rfl, rfl, rfl, rfl⟩
    exact memRead_congr ((hread b).trans (if_neg hb))
  · obtain ⟨m, -, e⟩ := memWrite_of_inBounds (inBounds_of_writeAddr_ok h) v
    exact ⟨_, e⟩

/-- Settles O15: equal reads and lengths give equal listed cells, by `cells_ext`. -/
theorem canonicalMemoryIsDeterminedByReads : Obligations.CanonicalMemoryIsDeterminedByReads := by
  intro m n hm hn hsize hread
  have ⟨hsortedM, hlistedM, _⟩ := hm
  have ⟨hsortedN, hlistedN, _⟩ := hn
  have hcells : m.cells = n.cells := cells_ext hsortedM hsortedN hlistedM hlistedN fun a => by
    rw [cellsRead_eq_getD_read hm, cellsRead_eq_getD_read hn, hread]
  obtain ⟨size, cells⟩ := m
  exact congrArg₂ Memory.mk hsize hcells

end Sys2Proof.Machine
end

section
/-! What a completing instruction does to resolved parameters, for each of the nine (spec 41_arithmetic.md R140 to R142,
42_io.md R150, R151, 43_branch.md R160, R161, 44_compare.md R170 to R172, 45_halt.md R180). -/

namespace Sys2Proof.Machine

/-! ### Resolution of parameters that have operands and destinations -/

/-- A destination has a legal mode digit and no fault. -/
theorem IsDestination.spec {s : State} {k d : Nat} {a : Int} (h : IsDestination s k d a) :
    d ≤ 1 ∧ paramFault s k d = none := by
  obtain ⟨hin, ⟨rfl, hread⟩ | ⟨rfl, rfl⟩⟩ := h
  · refine ⟨Nat.zero_le _, ?_⟩
    rw [paramFault, hread]
    exact if_neg fun h => h.2 hin
  · obtain ⟨w, hw⟩ := Option.isSome_iff_exists.1 (Memory.read_isSome.2 hin)
    exact ⟨le_rfl, by simp [paramFault, hw]⟩

theorem resolveReadReadWrite_of_operands {s : State} {m1 m2 m3 : Nat} {a b d : Int} (ha : IsOperand s 1 m1 a)
    (hb : IsOperand s 2 m2 b) (hd : IsDestination s 3 m3 d) :
    resolveReadReadWrite m1 m2 m3 s = .ok (a, b, d) ∧ s.ip + 4 ≤ s.mem.size := by
  obtain ⟨h1, -, f1⟩ := ha.spec
  obtain ⟨h2, -, f2⟩ := hb.spec
  obtain ⟨h3, f3⟩ := hd.spec
  obtain ⟨a', b', d', e, -, -, ha', hb', hd', hn⟩ | ⟨x, -, -, hf⟩ | ⟨-, hl⟩ := resolveReadReadWrite_cases m1 m2 m3 s
  · rw [ha.unique ha', hb.unique hb', hd.unique hd']
    exact ⟨e, hn⟩
  · simp [firstParamFault, f1, f2, f3] at hf
  · exact absurd ⟨h1, h2, h3⟩ hl

theorem resolveReadRead_of_operands {s : State} {m1 m2 : Nat} {c x : Int} (hc : IsOperand s 1 m1 c)
    (hx : IsOperand s 2 m2 x) : resolveReadRead m1 m2 s = .ok (c, x) ∧ s.ip + 3 ≤ s.mem.size := by
  obtain ⟨h1, -, f1⟩ := hc.spec
  obtain ⟨h2, -, f2⟩ := hx.spec
  obtain ⟨c', x', e, -, -, hc', hx', -, -, hn⟩ | ⟨y, -, -, hf⟩ | ⟨-, hl⟩ := resolveReadRead_cases m1 m2 s
  · rw [hc.unique hc', hx.unique hx']
    exact ⟨e, hn⟩
  · simp [firstParamFault, f1, f2] at hf
  · exact absurd ⟨h1, h2⟩ hl

theorem resolveRead_of_operand {s : State} {m1 : Nat} {v : Int} (hv : IsOperand s 1 m1 v) :
    resolveRead m1 s = .ok v ∧ s.ip + 2 ≤ s.mem.size := by
  obtain ⟨h1, -, f1⟩ := hv.spec
  obtain ⟨v', e, -, -, hv', hn⟩ | ⟨y, -, -, hf⟩ | ⟨-, hl⟩ := resolveRead_cases m1 s
  · rw [hv.unique hv']
    exact ⟨e, hn⟩
  · simp [firstParamFault, f1] at hf
  · exact absurd h1 hl

theorem resolveWrite_of_destination {s : State} {m1 : Nat} {d : Int} (hd : IsDestination s 1 m1 d) :
    resolveWrite m1 s = .ok d ∧ s.ip + 2 ≤ s.mem.size := by
  obtain ⟨h1, f1⟩ := hd.spec
  obtain ⟨d', e, -, -, hd', hn⟩ | ⟨y, -, -, hf⟩ | ⟨-, hl⟩ := resolveWrite_cases m1 s
  · rw [hd.unique hd']
    exact ⟨e, hn⟩
  · simp [firstParamFault, f1] at hf
  · exact absurd h1 hl

/-! ### The ends of storing instructions and of jumps -/

/-- The end of a storing instruction: the word in its destination, ip moved on, and nothing else (40_engine.md R104,
R107, R109). -/
theorem storeAndAdvance_stores {s : State} {d : Int} {n : Nat} (v : Int) (hwf : s.mem.wf) (hd : s.mem.InBounds d)
    (hn : s.ip + n ≤ s.mem.size) :
    ∃ t, storeAndAdvance d v n s = .next t ∧ StoredAndAdvanced s t d v n ∧ t.iq = s.iq := by
  obtain ⟨m, hm, e⟩ := storeAndAdvance_eq v hd hn
  have hread := Memory.read_write hwf.1 hm
  have hothers : ∀ a, a ≠ d → m.read a = s.mem.read a := fun a ha => (hread a).trans (if_neg ha)
  exact ⟨_, e, ⟨(hread d).trans (if_pos rfl), hothers, Memory.write_size hm, rfl, rfl, rfl, rfl, rfl⟩, rfl⟩

@[simp] theorem jumpNext_true (x : Int) (s : State) : jumpNext true x s = x := rfl
@[simp] theorem jumpNext_false (x : Int) (s : State) : jumpNext false x s = (s.ip : Int) + 3 := rfl

/-- The end of a jump whose slots are inside memory (40_engine.md R109, R110): taken to a target in [0, N], not taken,
or a fault at any other target. -/
theorem setNext_jumpNext {s : State} {taken : Bool} {x : Int} (hn : s.ip + 3 ≤ s.mem.size) :
    (taken = true → 0 ≤ x → x ≤ s.mem.size → ∃ t, setNext (jumpNext taken x s) s = .next t ∧ OnlyIpMoved s t x) ∧
    (taken = false → ∃ t, setNext (jumpNext taken x s) s = .next t ∧ OnlyIpMoved s t ((s.ip : Int) + 3)) ∧
    (taken = true → x < 0 ∨ (s.mem.size : Int) < x → ∃ t, setNext (jumpNext taken x s) s = .next t ∧
      FaultEntered s t .addressOutOfBounds (s.mem.read s.ip) (some x)) := by
  refine ⟨?_, ?_, ?_⟩
  · rintro rfl hlow hhigh
    exact ⟨_, setNext_of_inside ⟨hlow, hhigh⟩, setIp_onlyIpMoved hlow s⟩
  · rintro rfl
    have hlow : (0 : Int) ≤ s.ip + 3 := by omega
    exact ⟨_, setNext_of_inside ⟨hlow, by rw [jumpNext_false]; omega⟩, setIp_onlyIpMoved hlow s⟩
  · rintro rfl hout
    exact ⟨_, setNext_of_outside (by rw [jumpNext_true]; omega), takeFault_entered (.addressOutOfBounds x) s⟩

/-! ### Each instruction on resolved parameters -/

section
variable {s : State} {m1 m2 m3 : Nat} {a b d : Int}

theorem exec_add_of_operands (ha : IsOperand s 1 m1 a) (hb : IsOperand s 2 m2 b) (hd : IsDestination s 3 m3 d) :
    exec (.add m1 m2 m3) s = storeResult (a + b) d s := by
  simp only [exec, execAdd, resolveReadReadWrite_of_operands ha hb hd]

theorem exec_multiply_of_operands (ha : IsOperand s 1 m1 a) (hb : IsOperand s 2 m2 b) (hd : IsDestination s 3 m3 d) :
    exec (.multiply m1 m2 m3) s = storeResult (a * b) d s := by
  simp only [exec, execMultiply, resolveReadReadWrite_of_operands ha hb hd]

theorem exec_lessThan_of_operands (ha : IsOperand s 1 m1 a) (hb : IsOperand s 2 m2 b) (hd : IsDestination s 3 m3 d) :
    exec (.lessThan m1 m2 m3) s = storeAndAdvance d (lessWord a b) 4 s := by
  simp only [exec, execLessThan, resolveReadReadWrite_of_operands ha hb hd]

theorem exec_equals_of_operands (ha : IsOperand s 1 m1 a) (hb : IsOperand s 2 m2 b) (hd : IsDestination s 3 m3 d) :
    exec (.equals m1 m2 m3) s = storeAndAdvance d (equalWord a b) 4 s := by
  simp only [exec, execEquals, resolveReadReadWrite_of_operands ha hb hd]

theorem exec_jumpIfTrue_of_operands (ha : IsOperand s 1 m1 a) (hb : IsOperand s 2 m2 b) :
    exec (.jumpIfTrue m1 m2) s = setNext (jumpNext (isNonzero a) b s) s := by
  simp only [exec, execJumpIfTrue, resolveReadRead_of_operands ha hb]

theorem exec_jumpIfFalse_of_operands (ha : IsOperand s 1 m1 a) (hb : IsOperand s 2 m2 b) :
    exec (.jumpIfFalse m1 m2) s = setNext (jumpNext (isZero a) b s) s := by
  simp only [exec, execJumpIfFalse, resolveReadRead_of_operands ha hb]

theorem exec_readInput_of_destination (hd : IsDestination s 1 m1 d) :
    exec (.readInput m1) s = storeAndAdvance d (s.iq.headD 0) 2 (s.setIq s.iq.tail) := by
  simp only [exec, execReadInput, resolveWrite_of_destination hd, inPop_value, inPop_snd]

/-- A write-output with room appends its operand and goes on (40_engine.md R113). -/
theorem exec_writeOutput_of_room (hv : IsOperand s 1 m1 a) (hroom : HasOutputRoom s) :
    exec (.writeOutput m1) s = .next ((s.setOq (s.oq ++ [a])).setIp (s.ip + 2)) := by
  obtain ⟨hresolve, hn⟩ := resolveRead_of_operand hv
  simp only [exec, execWriteOutput, hresolve, outPush_eq_some.2 ⟨hroom, rfl⟩]
  exact setNext_stride (s := s.setOq (s.oq ++ [a])) hn

/-- A write-output without room is stuck (40_engine.md R113). -/
theorem exec_writeOutput_of_full (hv : IsOperand s 1 m1 a) (hfull : ¬ HasOutputRoom s) :
    exec (.writeOutput m1) s = .fault .outputLogFull := by
  simp only [exec, execWriteOutput, resolveRead_of_operand hv, outPush_eq_none.2 hfull]

end

/-- The end of add and multiply: the result word, if there is one, is stored (41_arithmetic.md R140). -/
theorem storeResult_stores {s : State} {d x v : Int} (h : resultWord s.cfg x = some v) (hwf : s.mem.wf)
    (hd : s.mem.InBounds d) (hn : s.ip + 4 ≤ s.mem.size) :
    ∃ t, storeResult x d s = .next t ∧ StoredAndAdvanced s t d v 4 ∧ t.iq = s.iq := by
  simp only [storeResult, h]
  exact storeAndAdvance_stores v hwf hd hn

/-- Both settings of OVERFLOW keep an exact result that is a word (41_arithmetic.md R140). -/
theorem resultWord_of_isWord {c : Config} (hW : 1 ≤ c.W) {x : Int} (hx : IsWord c.W x) : resultWord c x = some x := by
  cases ho : c.OVERFLOW with
  | wrap => rw [resultWord_wrap ho, wrapWord_of_isWord hW hx]
  | refuse => rw [resultWord, ho]; exact if_pos hx

/-- A value in a word's range, up to a multiple of 2^W, wraps to that word (00_scope.md R10). -/
theorem wrapWord_eq_of_add_mul {W : Nat} (hW : 1 ≤ W) {u v : Int} (hu : IsWord W u) (k : Int)
    (h : u = v + 2 ^ W * k) : wrapWord W v = u := by
  rw [← wrapWord_of_isWord hW hu, wrapWord_eq_wrapWord_iff_dvd]
  exact ⟨-k, by rw [h]; ring⟩

/-- Settles O36. -/
theorem addStoresWrappedSum : Obligations.AddStoresWrappedSum := by
  intro s m1 m2 m3 a b d ho hwf ha hb hd
  rw [exec_add_of_operands ha hb hd]
  exact storeResult_stores (resultWord_wrap ho _) hwf hd.1 (resolveReadReadWrite_of_operands ha hb hd).2

/-- Settles O37. -/
theorem multiplyStoresWrappedProduct : Obligations.MultiplyStoresWrappedProduct := by
  intro s m1 m2 m3 a b d ho hwf ha hb hd
  rw [exec_multiply_of_operands ha hb hd]
  exact storeResult_stores (resultWord_wrap ho _) hwf hd.1 (resolveReadReadWrite_of_operands ha hb hd).2

/-- Settles O38: both instructions end in `storeResult` of their exact result. -/
theorem overflowSettingsAgreeInRange : Obligations.OverflowSettingsAgreeInRange := by
  intro s m1 m2 m3 a b d ⟨hW, _⟩ hwf ha hb hd i x hi
  have hexec : exec i s = storeResult x d s := by
    obtain ⟨rfl, rfl⟩ | ⟨rfl, rfl⟩ := hi
    · exact exec_add_of_operands ha hb hd
    · exact exec_multiply_of_operands ha hb hd
  rw [hexec]
  refine ⟨fun hx => ?_, fun hx ho => ?_⟩
  · exact storeResult_stores (resultWord_of_isWord (by omega) hx) hwf hd.1
      (resolveReadReadWrite_of_operands ha hb hd).2
  · rw [storeResult, resultWord_eq_none.2 ⟨ho, hx⟩]

/-- Settles O40: with 2^W = 4q, MIN = −2q and MAX = 2q − 1, each value differs from its word by a multiple of 2^W. -/
theorem wrapCornerCases : Obligations.WrapCornerCases := by
  intro W hW
  obtain ⟨n, rfl⟩ : ∃ n, W = n + 16 := ⟨W - 16, by omega⟩
  obtain ⟨q, hq⟩ : ∃ q : Int, q = 2 ^ (n + 14) := ⟨_, rfl⟩
  have hpow : (2 : Int) ^ (n + 16) = 4 * q := by rw [hq]; ring
  have hmin : wordMin (n + 16) = -(2 * q) := by
    rw [wordMin, Nat.add_sub_assoc (by decide), hq]; push_cast; ring
  have hmax : wordMax (n + 16) = 2 * q - 1 := by
    rw [wordMax, Nat.add_sub_assoc (by decide), hq]; push_cast; ring
  have hlarge : 16384 ≤ q := by
    rw [hq, pow_add]
    have : (1 : Int) ≤ 2 ^ n := one_le_pow₀ (by decide)
    omega
  have word {u v : Int} (k : Int) (hlow : -(2 * q) ≤ u) (hhigh : u ≤ 2 * q - 1) (h : u = v + 4 * q * k) :
      wrapWord (n + 16) v = u :=
    wrapWord_eq_of_add_mul (by omega) ⟨hmin ▸ hlow, hmax ▸ hhigh⟩ k (hpow ▸ h)
  rw [hmin, hmax]
  refine ⟨word (-1) (by omega) (by omega) (by ring), word 1 (by omega) (by omega) (by ring),
    word 0 (by omega) (by omega) (by ring), word 0 (by omega) (by omega) (by ring),
    word (-1) (by omega) (by omega) (by ring), word (-1) (by omega) (by omega) (by ring),
    word (1 - q) (by omega) (by omega) (by ring), word (-q) (by omega) (by omega) (by ring), fun a ha => ⟨?_, ?_⟩⟩
  · rw [add_zero, wrapWord_of_isWord (by omega) ha]
  · rw [mul_zero, wrapWord_of_isWord (by omega) (zero_isWord _)]

/-- Settles O41. -/
theorem lessThanStoresTruth : Obligations.LessThanStoresTruth := by
  intro s m1 m2 m3 a b d hwf ha hb hd
  have hword : lessWord a b = if a < b then 1 else 0 := by simp [lessWord, truthWord]
  rw [exec_lessThan_of_operands ha hb hd, hword]
  exact storeAndAdvance_stores _ hwf hd.1 (resolveReadReadWrite_of_operands ha hb hd).2

/-- Settles O42. -/
theorem equalsStoresTruth : Obligations.EqualsStoresTruth := by
  intro s m1 m2 m3 a b d hwf ha hb hd
  have hword : equalWord a b = if a = b then 1 else 0 := by simp [equalWord, truthWord]
  rw [exec_equals_of_operands ha hb hd, hword]
  exact storeAndAdvance_stores _ hwf hd.1 (resolveReadReadWrite_of_operands ha hb hd).2

/-- A read-input stores the head of the queue, 0 if there is none, and leaves the tail (42_io.md R150). -/
theorem exec_readInput_stores {s : State} {m1 : Nat} {d : Int} (hwf : s.mem.wf) (hd : IsDestination s 1 m1 d) :
    ∃ t, exec (.readInput m1) s = .next t ∧ StoredAndAdvanced s t d (s.iq.headD 0) 2 ∧ t.iq = s.iq.tail := by
  obtain ⟨t, e, hstored, hiq⟩ := storeAndAdvance_stores (s := s.setIq s.iq.tail) (n := 2) (s.iq.headD 0) hwf hd.1
    (resolveWrite_of_destination hd).2
  obtain ⟨h1, h2, h3, h4, h5, h6, h7, h8⟩ := hstored
  exact ⟨t, (exec_readInput_of_destination hd).trans e, ⟨h1, h2, h3, h4, h5, h6, h7, h8⟩, hiq⟩

/-- Settles O43: the two forms of the queue. -/
theorem readInputStoresHeadOrZero : Obligations.ReadInputStoresHeadOrZero := by
  intro s m1 d hwf hd
  have h := exec_readInput_stores hwf hd
  refine ⟨fun v vs hq => ?_, fun hq => ?_⟩ <;> rw [hq] at h <;> exact h

/-- Settles O44. -/
theorem writeOutputAppends : Obligations.WriteOutputAppends := fun _ _ _ hv hroom =>
  ⟨_, exec_writeOutput_of_room hv hroom, rfl, rfl, rfl, rfl, rfl, rfl, rfl⟩

/-- Settles O45: the jump is taken exactly when c ≠ 0. -/
theorem jumpIfTrueGoesToTarget : Obligations.JumpIfTrueGoesToTarget := by
  intro s m1 m2 c x hc hx
  rw [exec_jumpIfTrue_of_operands hc hx]
  obtain ⟨-, hn⟩ := resolveReadRead_of_operands hc hx
  obtain ⟨htaken, hnot, hfault⟩ := setNext_jumpNext (taken := isNonzero c) (x := x) hn
  exact ⟨fun h => htaken (decide_eq_true h), fun h => hnot (decide_eq_false (not_not.2 h)),
    fun h => hfault (decide_eq_true h)⟩

/-- Settles O46: the jump is taken exactly when c = 0. -/
theorem jumpIfFalseGoesToTarget : Obligations.JumpIfFalseGoesToTarget := by
  intro s m1 m2 c x hc hx
  rw [exec_jumpIfFalse_of_operands hc hx]
  obtain ⟨-, hn⟩ := resolveReadRead_of_operands hc hx
  obtain ⟨htaken, hnot, hfault⟩ := setNext_jumpNext (taken := isZero c) (x := x) hn
  exact ⟨fun h => htaken (decide_eq_true h), fun h => hnot (decide_eq_false h), fun h => hfault (decide_eq_true h)⟩

/-- Settles O47. -/
theorem haltStopsInPlace : Obligations.HaltStopsInPlace := fun s =>
  ⟨s.setSt .halted, rfl, rfl, rfl, rfl, rfl, rfl, rfl, rfl, rfl, hostTransact_status_of_not_running nofun⟩

end Sys2Proof.Machine
end

section
/-! The step: its faults in the order of the spec, and where ST and ip go (spec 40_engine.md R102 to R111;
60_exceptions.md R201 to R207). -/

namespace Sys2Proof.Machine

theorem step_of_not_running {s : State} (hs : s.st ≠ .running) : step s = .next s := by
  have hend := step_cases s
  generalize step s = o at hend
  cases hend with
  | idle => rfl
  | fault hrun => exact absurd hrun hs
  | run hrun => exact absurd hrun hs

theorem step_of_decode {s : State} {w : Int} {i : Instr} (hs : s.st = .running) (hw : s.mem.read s.ip = some w)
    (hd : decode w = .ok i) : step s = exec i s :=
  step_of_fetchDecode hs (fetchDecode_ok hw hd)

/-- A Running step that has a fault enters it (60_exceptions.md R206). -/
theorem step_enters_stepFault {s : State} {r : Raise} (hs : s.st = .running) (h : stepFault s = some r) :
    ∃ t, step s = .next t ∧ FaultEntered s t r.kind (s.mem.read s.ip) r.addr :=
  ⟨_, step_of_stepFault hs h, takeFault_entered r s⟩

/-- The same for the fault of a fetched instruction, with the fetched word recorded. -/
theorem step_enters_instrFault {s : State} {w : Int} {i : Instr} {r : Raise} (hs : s.st = .running)
    (hw : s.mem.read s.ip = some w) (hd : decode w = .ok i) (h : instrFault s i = some r) :
    ∃ t, step s = .next t ∧ FaultEntered s t r.kind (some w) r.addr :=
  hw ▸ step_enters_stepFault hs ((stepFault_of_decode hw hd).trans h)

/-- The first parameter that offends is the one after parameters that do not (60_exceptions.md R205). -/
theorem firstParamFault_eq_some {s : State} {ds : List Nat} {n k d : Nat} {a : Int} (hd : ds[k]? = some d)
    (hbefore : ∀ j e, j < k → ds[j]? = some e → paramFault s (j + n) e = none) (ha : paramFault s (k + n) d = some a) :
    firstParamFault s n ds = some a := by
  induction ds generalizing n k with
  | nil => cases hd
  | cons d' ds ih =>
    rw [firstParamFault]
    cases k with
    | zero =>
      cases hd
      rw [Nat.zero_add] at ha
      rw [ha, Option.some_or]
    | succ k =>
      have hfirst := hbefore 0 d' (Nat.succ_pos k) rfl
      rw [Nat.zero_add] at hfirst
      rw [hfirst, Option.none_or]
      refine ih hd (fun j e hj he => ?_) (by rwa [← Nat.add_assoc, Nat.add_right_comm])
      rw [← Nat.add_assoc, Nat.add_right_comm]
      exact hbefore (j + 1) e (Nat.succ_lt_succ hj) he

/-- A parameter whose slot is outside memory offends with the slot's address (60_exceptions.md R202 b). -/
theorem paramFault_of_slot_outside {s : State} {k d : Nat} (h : ¬ s.mem.InBounds (slot s k)) :
    paramFault s k d = some (slot s k) := by
  rw [paramFault, Memory.read_eq_none.2 h]

/-- A position-mode parameter whose address is outside memory offends with that address (60_exceptions.md R202 c, d). -/
theorem paramFault_of_address_outside {s : State} {k : Nat} {a : Int} (hslot : s.mem.read (slot s k) = some a)
    (h : ¬ s.mem.InBounds a) : paramFault s k 0 = some a := by
  rw [paramFault, hslot]
  exact if_pos ⟨rfl, h⟩

/-- The instruction's fault is that of its first offending parameter once its modes are legal. -/
theorem instrFault_of_firstParamFault {s : State} {i : Instr} {a : Int} (hl : LegalModes i)
    (h : firstParamFault s 1 i.modeDigits = some a) : instrFault s i = some (.addressOutOfBounds a) := by
  rw [instrFault, if_neg (not_not.2 hl), h]
  rfl

/-- An illegal mode digit is the instruction's fault, whatever its slots hold (60_exceptions.md R203). -/
theorem instrFault_of_illegal {s : State} {i : Instr} (hl : ¬ LegalModes i) : instrFault s i = some .invalidMode :=
  if_pos hl

/-- A fault sets ST, so a state after a completed instruction of a Running core is not Faulted. -/
theorem Completes.st_ne_faulted {s t : State} {i : Instr} (h : Completes s i t) (hs : s.st = .running) :
    t.st ≠ .faulted := by
  rw [h.st, hs]
  split <;> nofun

theorem Raise.kind_ne_none (r : Raise) : r.kind ≠ .none := by cases r <;> nofun

/-- A fault has an address exactly when it is AddressOutOfBounds (60_exceptions.md R206). -/
theorem Raise.addr_isSome (r : Raise) : r.addr.isSome ↔ r.kind = .addressOutOfBounds := by
  cases r <;> simp [Raise.addr, Raise.kind]

/-- halt faults on no state. -/
theorem instrFault_halt (s : State) : instrFault s .halt = none := by
  simp [instrFault, Instr.modeDigits, firstParamFault, nextPointerFault]

/-- An instruction that completes and is no jump or halt goes on at ip + length, inside memory (40_engine.md R109,
R111). -/
theorem Completes.ip_eq {s t : State} {i : Instr} (h : Completes s i t)
    (hjump : ∀ m1 m2, i ≠ .jumpIfTrue m1 m2 ∧ i ≠ .jumpIfFalse m1 m2) (hhalt : i ≠ .halt) :
    t.ip = s.ip + i.length ∧ s.ip + i.length ≤ s.mem.size := by
  cases h with
  | store hi _ _ _ hn =>
    rw [Instr.length, Instr.paramCount, hi]
    exact ⟨rfl, hn⟩
  | input _ _ hn => exact ⟨rfl, hn⟩
  | output _ _ hn => exact ⟨rfl, hn⟩
  | jump hi => cases i <;> simp_all [Instr.roles]
  | halt => exact absurd rfl hhalt

/-- Settles O27. -/
theorem stepRunsTheDecodedInstruction : Obligations.StepRunsTheDecodedInstruction :=
  fun _ _ _ => step_of_decode

/-- Settles O28. -/
theorem coreNotRunningKeepsItsState : Obligations.CoreNotRunningKeepsItsState :=
  fun _ => step_of_not_running

/-- Settles O29: such a word does not decode, by `exists_decode_ok`. -/
theorem invalidOpcodeIsRaised : Obligations.InvalidOpcodeIsRaised := by
  intro s w hs hw hbad
  have hnone : ¬ ∃ i, decode w = .ok i := by
    rw [exists_decode_ok]
    rintro ⟨hlow, hmem⟩
    exact hbad.elim (by omega) (· hmem)
  obtain ⟨j, hj⟩ := decode_eq_error.2 (not_exists.1 hnone)
  have hf : stepFault s = some .invalidOpcode := by simp only [stepFault, hw, hj]
  exact hw ▸ step_enters_stepFault hs hf

/-- Settles O30: mode digits are looked at before the slots. -/
theorem invalidModeIsRaised : Obligations.InvalidModeIsRaised := by
  intro s w i d hs hw hd hdigit hbad
  have hl : ¬ LegalModes i := fun hl => absurd (hl d hdigit) (by omega)
  exact step_enters_instrFault hs hw hd (instrFault_of_illegal hl)

/-- Settles O31: the fetch, the first offending parameter, and the target of a taken jump. -/
theorem addressFaultsInFivePlaces : Obligations.AddressFaultsInFivePlaces := by
  intro s hs
  refine ⟨fun hip => ?_, fun w i k d hw hd hl hk hbefore => ?_, fun w m1 m2 c x hw hc hx hout hjump => ?_⟩
  · have hread : s.mem.read s.ip = none := Memory.read_eq_none.2 fun ⟨_, hhigh⟩ => by omega
    exact ⟨_, step_of_fetch_outside hs hread, hread ▸ takeFault_entered (.addressOutOfBounds s.ip) s⟩
  · have hslot : slot s (k + 1) = (s.ip : Int) + (k + 1) := by
      rw [slot]
      push_cast
      rfl
    have raises {a : Int} (ha : paramFault s (k + 1) d = some a) :
        ∃ t, step s = .next t ∧ FaultEntered s t .addressOutOfBounds (some w) (some a) :=
      step_enters_instrFault hs hw hd (instrFault_of_firstParamFault hl (firstParamFault_eq_some hk hbefore ha))
    rw [← hslot]
    refine ⟨fun hsize => raises (paramFault_of_slot_outside fun ⟨_, hhigh⟩ => ?_), ?_⟩
    · omega
    · rintro a rfl ha hout
      exact raises (paramFault_of_address_outside ha fun ⟨hlow, hhigh⟩ => by omega)
  · rw [← hw]
    obtain ⟨hd, hcond⟩ | ⟨hd, hcond⟩ := hjump <;> rw [step_of_decode hs hw hd]
    · obtain ⟨-, -, hfault⟩ := jumpIfTrueGoesToTarget s m1 m2 c x hc hx
      exact hfault hcond hout
    · obtain ⟨-, -, hfault⟩ := jumpIfFalseGoesToTarget s m1 m2 c x hc hx
      exact hfault hcond hout

/-- Settles O32: `step_cases` compares the step with `stepFault`, and completion leaves FR. -/
theorem stepFaultsInPriorityOrder : Obligations.StepFaultsInPriorityOrder := by
  refine fun s hs => ⟨fun r => step_enters_stepFault hs, fun hnone t h => ?_⟩
  obtain ⟨hidle, -⟩ | ⟨-, r, hf, -⟩ | ⟨-, -, w, i, -, -, hc⟩ := step_next_cases h
  · exact absurd hs hidle
  · rw [hnone] at hf
    cases hf
  · exact ⟨hc.st_ne_faulted hs, hc.fr⟩

/-- Settles O33: a Running core becomes Faulted by fault entry only. -/
theorem everyFaultIsPreciseAndReported : Obligations.EveryFaultIsPreciseAndReported := by
  intro s t hs h hfaulted
  obtain ⟨hidle, -⟩ | ⟨-, r, -, rfl⟩ | ⟨-, -, w, i, -, -, hc⟩ := step_next_cases h
  · exact absurd hs hidle
  · exact ⟨r.kind, r.addr, r.kind_ne_none, r.addr_isSome, takeFault_entered r s, rfl⟩
  · exact absurd hfaulted (hc.st_ne_faulted hs)

/-- Settles O35. -/
theorem strideNeverLeavesMemory : Obligations.StrideNeverLeavesMemory := by
  intro s t i hjump hhalt hnone h
  obtain ⟨r, hf, -⟩ | ⟨-, hc⟩ := exec_next_cases h
  · rw [hnone] at hf
    cases hf
  · obtain ⟨hip, hsize⟩ := hc.ip_eq hjump hhalt
    have hlength : 1 ≤ i.length := Nat.le_add_right 1 _
    exact ⟨hip, by omega, by omega⟩

/-- Settles O10: fault entry, a completed halt and any other completed instruction are the three moves of a Running
core; `hostTransact_state_cases` gives the host's. -/
theorem statusMovesOnlyAsTabled : Obligations.StatusMovesOnlyAsTabled := by
  refine ⟨fun s t hs h => ?_, fun s t hs h => ?_, fun cmd s => ?_⟩
  · obtain ⟨hidle, -⟩ | ⟨-, r, hf, rfl⟩ | ⟨-, hnone, w, i, hw, hd, hc⟩ := step_next_cases h
    · exact absurd hs hidle
    · refine ⟨iff_of_true rfl (hf ▸ Option.some_ne_none r), iff_of_false nofun ?_, .inl rfl⟩
      rintro ⟨w, hw, hd⟩
      rw [stepFault_of_decode hw hd, instrFault_halt] at hf
      cases hf
    · have hst := hc.st
      rw [hs] at hst
      refine ⟨iff_of_false (hc.st_ne_faulted hs) (not_not.2 hnone), ?_, ?_⟩
      · rw [hst, hw]
        simp [hd]
      · rw [hst]
        split <;> simp
  · rw [step_of_not_running hs] at h
    cases h
    rfl
  · obtain e | ⟨p, rfl, hp, e⟩ | ⟨q, rfl, hq, e⟩ := hostTransact_state_cases cmd s <;> rw [e]
    · exact .inl rfl
    · exact .inr (.inl ⟨hp.1, ⟨p, rfl, hp⟩, rfl⟩)
    · exact .inr (.inr ⟨hq.1, ⟨q, rfl, hq⟩, rfl⟩)

end Sys2Proof.Machine
end

section
/-! The frame of each instruction, OQ, and the steps without a transition (spec 40_engine.md R105, R107, R113;
41_arithmetic.md R140; 60_exceptions.md R206). -/

namespace Sys2Proof.Machine

/-- There is no room exactly in a finite log that is full (40_engine.md R113). -/
theorem not_hasOutputRoom {s : State} : ¬ HasOutputRoom s ↔ ∃ c, s.cfg.OQ_CAP = some c ∧ c ≤ s.oq.length := by
  simp [HasOutputRoom, Option.mem_def]

/-- A completed instruction changes no cell but its resolved destination (40_engine.md R107). -/
theorem Completes.read_of_ne {s t : State} {i : Instr} (h : Completes s i t) (hwf : s.mem.wf) {a : Int}
    (ha : ∀ d, storedAddress s i = some d → a ≠ d) : t.mem.read a = s.mem.read a := by
  obtain ⟨-, e⟩ | ⟨d, v, hd, hw⟩ := h.mem
  · rw [e]
  · exact (Memory.read_write hwf.1 hw a).trans (if_neg (ha d hd))

/-- A completed instruction without a resolved destination leaves memory. -/
theorem Completes.mem_of_storedAddress_none {s t : State} {i : Instr} (h : Completes s i t)
    (hnone : storedAddress s i = none) : t.mem = s.mem := by
  obtain ⟨-, e⟩ | ⟨d, v, hd, -⟩ := h.mem
  · exact e
  · rw [hnone] at hd
    cases hd

/-- Settles O48: fault entry leaves all but ST and FR, and a completed instruction writes its destination. -/
theorem storingInstructionsFrame : Obligations.StoringInstructionsFrame := by
  intro m1 m2 m3 i hi s t hwf h
  have hkind : i ≠ .halt ∧ (∀ m, i ≠ .writeOutput m) ∧ ∀ m, i = .readInput m → m = m1 := by
    simp only [List.mem_cons, List.not_mem_nil, or_false] at hi
    obtain rfl | rfl | rfl | rfl | rfl := hi <;> simp
  obtain ⟨hhalt, hout, hin⟩ := hkind
  obtain ⟨r, hf, rfl⟩ | ⟨hnone, hc⟩ := exec_next_cases h
  · exact ⟨fun _ _ _ _ => rfl, fun _ _ => rfl, rfl, rfl, rfl, (if_neg fun hcomp => by simp [hf] at hcomp).symm,
      fun hnone => by simp [hf] at hnone, fun _ => ⟨rfl, rfl, rfl, rfl⟩⟩
  · have hoq : t.oq = s.oq := by
      obtain ⟨-, e⟩ | ⟨m, v, e, -⟩ := hc.oq_cases
      · exact e
      · exact absurd e (hout m)
    have hiq : t.iq = if i = .readInput m1 ∧ instrFault s i = none then s.iq.tail else s.iq := by
      obtain ⟨hne, e⟩ | ⟨m, rfl, e⟩ := hc.iq_cases
      · rw [e, if_neg fun hcomp => hne m1 hcomp.1]
      · rw [e, hin m rfl, if_pos ⟨rfl, hin m rfl ▸ hnone⟩]
    refine ⟨fun d hd a ha => hc.read_of_ne hwf fun d' hd' => ?_, fun hd a => ?_, hc.size, hoq, hc.cfg, hiq,
      fun _ => ⟨hc.st.trans (if_neg hhalt), hc.fr⟩, fun hf => absurd hnone hf⟩
    · rw [hd] at hd'
      cases hd'
      exact ha
    · rw [hc.mem_of_storedAddress_none hd]

/-- Settles O49: fault entry leaves all but ST and FR, and a completed instruction of these four has no destination. -/
theorem nonStoringInstructionsFrame : Obligations.NonStoringInstructionsFrame := by
  intro m1 m2 i hi s t h
  have hkind : storedAddress s i = none ∧ (∀ m, i ≠ .readInput m) ∧ ∀ m, i = .writeOutput m → m = m1 := by
    simp only [List.mem_cons, List.not_mem_nil, or_false] at hi
    obtain rfl | rfl | rfl | rfl := hi <;> simp [storedAddress]
  obtain ⟨hstore, hin, hout⟩ := hkind
  obtain ⟨r, hf, rfl⟩ | ⟨hnone, hc⟩ := exec_next_cases h
  · exact ⟨fun _ => rfl, rfl, rfl, rfl, .inr ⟨fun hcomp => by simp [hf] at hcomp, rfl⟩,
      fun hnone => by simp [hf] at hnone, fun _ => ⟨rfl, rfl, rfl⟩⟩
  · have hiq : t.iq = s.iq := by
      obtain ⟨-, e⟩ | ⟨m, e, -⟩ := hc.iq_cases
      · exact e
      · exact absurd e (hin m)
    have hmem := hc.mem_of_storedAddress_none hstore
    refine ⟨fun a => by rw [hmem], hc.size, hiq, hc.cfg, ?_, fun _ => ⟨hc.fr, hc.st⟩, fun hf => absurd hnone hf⟩
    obtain ⟨hne, e⟩ | ⟨m, v, rfl, hv, e⟩ := hc.oq_cases
    · exact .inr ⟨fun hcomp => hne m1 hcomp.1, e⟩
    · obtain rfl := hout m rfl
      exact .inl ⟨rfl, hnone, v, hv, e⟩

/-- Settles O51: an idle step and fault entry leave OQ, and of the instructions only write-output appends. -/
theorem outputLogOnlyGrowsAtItsEnd : Obligations.OutputLogOnlyGrowsAtItsEnd := by
  intro s t h
  obtain ⟨-, rfl⟩ | ⟨-, r, -, rfl⟩ | ⟨hs, -, w, i, hw, hd, hc⟩ := step_next_cases h
  · exact .inl rfl
  · exact .inl rfl
  · obtain ⟨-, e⟩ | ⟨m1, v, rfl, hv, e⟩ := hc.oq_cases
    · exact .inl e
    · exact .inr ⟨w, m1, v, hs, hw, hd, hv, e⟩

/-- Settles O52: of the ends of a step only the stuck one is no next state and no refusal. -/
theorem coreIsStuckOnlyOnAFullLog : Obligations.CoreIsStuckOnlyOnAFullLog := by
  refine fun s => ⟨?_, ?_⟩
  · rintro ⟨f, h⟩
    have hend := step_cases s
    rw [h] at hend
    cases hend with
    | run hs hw hd _ _ hx =>
      cases hx with
      | stuck hi _ hv hfull =>
        obtain ⟨c, hcap, hlen⟩ := not_hasOutputRoom.1 hfull
        exact ⟨_, _, _, c, hs, hw, hi ▸ hd, hv, hcap, hlen⟩
  · rintro ⟨w, m1, v, c, hs, hw, hd, hv, hcap, hlen⟩
    rw [step_of_decode hs hw hd, exec_writeOutput_of_full hv (not_hasOutputRoom.2 ⟨c, hcap, hlen⟩)]
    exact ⟨_, rfl⟩

/-- Settles O53. -/
theorem onlyOverflowIsRefused : Obligations.OnlyOverflowIsRefused := by
  intro s r h
  have hend := step_cases s
  rw [h] at hend
  cases hend with
  | run hs hw hd _ _ hx =>
    cases hx with
    | @refused m1 m2 m3 a b _ ha hb ho hover =>
      refine ⟨rfl, ho, _, m1, m2, m3, a, b, hw, ha, hb, ?_⟩
      obtain ⟨rfl, hx⟩ | ⟨rfl, hx⟩ := hover
      · exact .inl ⟨hd, hx⟩
      · exact .inr ⟨hd, hx⟩

/-- Settles O54: a full log needs a finite OQ_CAP, a refusal OVERFLOW = refuse. -/
theorem decidedCoreAlwaysHasATransition : Obligations.DecidedCoreAlwaysHasATransition := by
  rintro s ⟨hwrap, hcap⟩
  cases h : step s with
  | next t => exact ⟨t, h⟩
  | fault f =>
    obtain ⟨_, _, _, c, -, -, -, -, hfinite, -⟩ := (coreIsStuckOnlyOnAFullLog s).1 ⟨f, h⟩
    rw [hcap] at hfinite
    cases hfinite
  | refused r =>
    obtain ⟨-, hrefuse, -⟩ := onlyOverflowIsRefused s r h
    rw [hwrap] at hrefuse
    cases hrefuse

end Sys2Proof.Machine
end

section
/-! The answer of a RUN along a sequence of steps (spec 40_engine.md R101, R115, R116). -/

namespace Sys2Proof.Machine

/-- A core that has left Running stays as it is along every later step (40_engine.md R102). -/
theorem not_running_of_le {f : Nat → State} (hf : ∀ n, step (f n) = .next (f (n + 1))) {n m : Nat} (hnm : n ≤ m)
    (hn : (f n).st ≠ .running) : (f m).st ≠ .running := by
  induction m, hnm using Nat.le_induction with
  | base => exact hn
  | succ k _ ih =>
    have hsame : f k = f (k + 1) := Host.Outcome.next.inj ((step_of_not_running ih).symm.trans (hf k))
    rwa [← hsame]

theorem RunEnded.not_running {s : State} (h : RunEnded s) : s.st ≠ .running := by
  obtain h | h := h <;> rw [h] <;> nofun

/-- A step that answers is a Running one, and the run has ended after it (40_engine.md R101, R116). -/
theorem runEnded_of_stepAnswer {s t : State} {a : HostAnswer} (hstep : step s = .next t) (h : stepAnswer s = some a) :
    s.st = .running ∧ RunEnded t := by
  obtain ⟨hs, t', o, hstep', ho, -⟩ := stepAnswer_eq_some.1 h
  rw [hstep] at hstep'
  cases hstep'
  exact ⟨hs, runOutcome_isSome.1 (ho ▸ rfl)⟩

theorem runOutcome_of_halted {s : State} (h : s.st = .halted) : runOutcome s = some (.halted s.oq) := by
  rw [runOutcome, h]

theorem runOutcome_of_faulted {s : State} (h : s.st = .faulted) : runOutcome s = some (.faulted s.fr s.oq) := by
  rw [runOutcome, h]

/-- Settles O59: the step that ends the run answers its outcome; an answer at two steps would need a Running core after
the end of its run. -/
theorem runIsAnsweredOnceWhenItEnds : Obligations.RunIsAnsweredOnceWhenItEnds := by
  refine ⟨fun f hf => ?_, fun s hs => ?_⟩
  · have ended {n : Nat} {a : HostAnswer} (h : stepAnswer (f n) = some a) :
        (f n).st = .running ∧ RunEnded (f (n + 1)) := runEnded_of_stepAnswer (hf n) h
    have le_of_answers {n m : Nat} {a b : HostAnswer} (hn : stepAnswer (f n) = some a)
        (hm : stepAnswer (f m) = some b) : m ≤ n := by
      by_contra hlt
      exact not_running_of_le hf (not_le.1 hlt) (ended hn).2.not_running (ended hm).1
    refine ⟨fun n hrun hhalt => ?_, fun n hrun hfault => ?_, fun n a h => ⟨(ended h).1, (ended h).2, fun m hne => ?_⟩,
      fun hrun n => ?_⟩
    · rw [stepAnswer_of_next hrun (hf n), runOutcome_of_halted hhalt]
      rfl
    · rw [stepAnswer_of_next hrun (hf n), runOutcome_of_faulted hfault]
      rfl
    · by_contra hm
      obtain ⟨b, hb⟩ := Option.ne_none_iff_exists'.1 hm
      exact hne (le_antisymm (le_of_answers h hb) (le_of_answers hb h))
    · by_contra hn
      obtain ⟨a, ha⟩ := Option.ne_none_iff_exists'.1 hn
      exact (ended ha).2.not_running (hrun (n + 1))
  · by_contra hn
    obtain ⟨a, ha⟩ := Option.ne_none_iff_exists'.1 hn
    obtain ⟨-, t, -, hstep, -⟩ := stepAnswer_eq_some.1 ha
    exact hs t hstep

end Sys2Proof.Machine
end

section
/-! The port transactions of a step: its trace is reads and then at most one write, which is what the step does to memory
(spec 20_memory.md R53; 40_engine.md R106 to R108). -/

namespace Sys2Proof.Machine

/-- The two ways a step uses the memory port: reads only, which end at a refused address exactly when that is the step's
fault, or reads that all succeed and then the write that is the step's effect on memory. -/
inductive TraceEnd (s : State) : Prop
  | noWrite {fail : Option Int} (hr : Reads s (portTrace s) fail)
      (hf : ∀ a, fail = some a → s.st = .running ∧ stepFault s = some (.addressOutOfBounds a))
      (hm : ∀ t, step s = .next t → t.mem = s.mem)
  | write {ops : List PortOp} {d v : Int} {m : Memory} (hr : Reads s ops none) (he : portTrace s = ops ++ [.wr d v])
      (hw : s.mem.write d v = some m) (hm : ∀ t, step s = .next t → t.mem = m)

/-- A step that faults leaves memory alone (60_exceptions.md R206). -/
theorem mem_of_stepFault {s t : State} {r : Raise} (hs : s.st = .running) (hf : stepFault s = some r)
    (h : step s = .next t) : t.mem = s.mem := by
  rw [step_of_stepFault hs hf] at h
  cases h
  rfl

/-- A fetch alone can only fail at ip. -/
theorem fetch_reads_failing_at_ip (s : State) : Reads s [.rd s.ip] (some s.ip) := by
  refine ⟨fun op hop => ?_, nofun, fun op hop _ => ?_⟩ <;> rw [List.mem_singleton.1 hop]
  · nofun
  · rfl

/-- The offending address of an instruction's parameters is its fault. -/
theorem instrFault_of_resolveFault {s : State} {i : Instr} {a : Int} (h : resolveFault s i = some a) :
    instrFault s i = some (.addressOutOfBounds a) := by
  unfold resolveFault at h
  split at h
  · next hl => exact instrFault_of_firstParamFault hl h
  · cases h

/-- Every step uses the memory port in one of the two ways (40_engine.md R106, R107). -/
theorem traceEnd (s : State) : TraceEnd s := by
  obtain ⟨hs, e⟩ | ⟨hs, e, hbad⟩ | ⟨w, i, hs, hw, hd, e⟩ := portTrace_cases s
  · refine .noWrite (fail := none) (e ▸ .nil ..) nofun fun t h => ?_
    rw [step_of_not_running hs] at h
    cases h
    rfl
  · obtain hnone | ⟨w, hw, j, hj⟩ := hbad
    · have hf : stepFault s = some (.addressOutOfBounds s.ip) := by simp only [stepFault, hnone]
      refine .noWrite (e ▸ fetch_reads_failing_at_ip s) (fun a ha => ?_) fun t => mem_of_stepFault hs hf
      cases ha
      exact ⟨hs, hf⟩
    · have hf : stepFault s = some .invalidOpcode := by simp only [stepFault, hw, hj]
      exact .noWrite (fail := none) (e ▸ fetch_reads hw) nofun fun t => mem_of_stepFault hs hf
  · have hfetch := fetch_reads hw
    have hstep := step_of_decode hs hw hd
    change portTrace s = [.rd s.ip] ++ instrOps s i at e
    cases instrOps_cases s i with
    | noWrite hr hm =>
      refine .noWrite (e ▸ hfetch.append hr) (fun a ha => ⟨hs, ?_⟩) fun t h => hm t (hstep ▸ h)
      rw [stepFault_of_decode hw hd]
      exact instrFault_of_resolveFault ha
    | write hr he hwr hm =>
      exact .write (hfetch.append hr) (by rw [e, he, List.append_assoc]) hwr fun t h => hm t (hstep ▸ h)

/-- A traced write is the step's effect on memory (40_engine.md R107, R108). -/
theorem write_of_mem_portTrace {s : State} {d v : Int} (h : PortOp.wr d v ∈ portTrace s) :
    ∃ m, s.mem.write d v = some m ∧ ∀ t, step s = .next t → t.mem = m := by
  cases traceEnd s with
  | noWrite hr => exact absurd rfl (hr.noWrite _ h d v)
  | @write ops d' v' m hr he hw hm =>
    rw [he] at h
    obtain hread | hlast := List.mem_append.1 h
    · exact absurd rfl (hr.noWrite _ hread d v)
    · cases List.mem_singleton.1 hlast
      exact ⟨m, hw, hm⟩

/-- A step without a traced write leaves memory (40_engine.md R107). -/
theorem mem_of_no_traced_write {s t : State} (hno : ∀ d v, PortOp.wr d v ∉ portTrace s) (h : step s = .next t) :
    t.mem = s.mem := by
  cases traceEnd s with
  | noWrite _ _ hm => exact hm t h
  | @write ops d v m _ he => exact absurd (by simp [he]) (hno d v)

/-- Memory after a step with a traced write: the written word there, every other cell as before. -/
theorem read_of_mem_portTrace {s t : State} {d v : Int} (hwf : s.mem.wf) (hstep : step s = .next t)
    (h : PortOp.wr d v ∈ portTrace s) (a : Int) : t.mem.read a = if a = d then some v else s.mem.read a := by
  obtain ⟨m, hw, hm⟩ := write_of_mem_portTrace h
  rw [hm t hstep]
  exact Memory.read_write hwf.1 hw a

/-- Settles O16: the written word is what the next fetch decodes. -/
theorem nextFetchSeesTheWrite : Obligations.NextFetchSeesTheWrite := by
  intro s t d v hwf hstep h
  have hread : t.mem.read d = some v := (read_of_mem_portTrace hwf hstep h d).trans (if_pos rfl)
  exact ⟨memRead_ok.2 hread, fun hip hrun i hd => step_of_decode hrun (hip ▸ hread) hd⟩

/-- Settles O18. -/
theorem memoryEffectIsTheTracedWrite : Obligations.MemoryEffectIsTheTracedWrite := by
  refine fun s t hwf hstep => ⟨fun d v h => ?_, fun hno => mem_of_no_traced_write hno hstep⟩
  have hread := read_of_mem_portTrace hwf hstep h
  exact ⟨(hread d).trans (if_pos rfl), fun a ha => (hread a).trans (if_neg ha)⟩

/-- Settles O17: the two ways of `traceEnd`. -/
theorem portReadsThenWritesOnce : Obligations.PortReadsThenWritesOnce := by
  refine fun s => ⟨fun hs => ?_, fun op hop => ?_, fun op hop hout => ?_, fun d v h => ?_⟩
  · obtain ⟨hidle, -⟩ | ⟨-, e, -⟩ | ⟨_, _, -, -, -, e⟩ := portTrace_cases s
    · exact absurd hs hidle
    · rw [e]; rfl
    · rw [e]; rfl
  · cases traceEnd s with
    | noWrite hr => exact ⟨hr.inside op hop, hr.noWrite op (List.mem_of_mem_dropLast hop)⟩
    | write hr he =>
      rw [he, List.dropLast_concat] at hop
      exact ⟨hr.all_inside op hop, hr.noWrite op hop⟩
  · cases traceEnd s with
    | noWrite hr hf =>
      obtain ⟨hs, hfault⟩ := hf _ (hr.failed op hop hout)
      exact step_enters_stepFault hs hfault
    | write hr he hw =>
      rw [he] at hop
      obtain hread | hlast := List.mem_append.1 hop
      · exact absurd (hr.all_inside op hread) hout
      · rw [List.mem_singleton.1 hlast] at hout
        exact absurd (Memory.write_eq_some.1 hw).1 hout
  · obtain ⟨m, hw, -⟩ := write_of_mem_portTrace h
    exact (Memory.write_eq_some.1 hw).1

/-! ### The order of the accesses -/

/-- `ws` is the write that ends instruction i's transactions: one to the resolved destination if there is one and the
result is not refused. -/
def EndsWithItsWrite (s : State) (i : Instr) (ws : List PortOp) : Prop :=
  (storedAddress s i = none → ws = []) ∧
    ∀ d, storedAddress s i = some d → (∃ v, ws = [.wr d v]) ∨ (ws = [] ∧ ∃ r, exec i s = .refused r)

/-- An instruction without a resolved destination ends without a write. -/
theorem endsWithItsWrite_nil {s : State} {i : Instr} (h : storedAddress s i = none) : EndsWithItsWrite s i [] :=
  ⟨fun _ => rfl, fun d hd => by rw [h] at hd; cases hd⟩

theorem endsWithItsWrite_singleton {s : State} {i : Instr} {d : Int} (h : storedAddress s i = some d) (v : Int) :
    EndsWithItsWrite s i [.wr d v] := by
  refine ⟨fun hnone => ?_, fun d' hd => ?_⟩
  · rw [h] at hnone
    cases hnone
  · rw [h] at hd
    cases hd
    exact .inl ⟨v, rfl⟩

theorem endsWithItsWrite_refused {s : State} {i : Instr} {r : Refusal} (h : exec i s = .refused r) :
    EndsWithItsWrite s i [] :=
  ⟨fun _ => rfl, fun _ _ => .inr ⟨rfl, r, h⟩⟩

theorem legalModes_iff_three {i : Instr} {m1 m2 m3 : Nat} (h : i.modeDigits = [m1, m2, m3]) :
    LegalModes i ↔ m1 ≤ 1 ∧ m2 ≤ 1 ∧ m3 ≤ 1 := by
  simp [LegalModes, h]

theorem legalModes_iff_two {i : Instr} {m1 m2 : Nat} (h : i.modeDigits = [m1, m2]) :
    LegalModes i ↔ m1 ≤ 1 ∧ m2 ≤ 1 := by
  simp [LegalModes, h]

theorem legalModes_iff_one {i : Instr} {m1 : Nat} (h : i.modeDigits = [m1]) : LegalModes i ↔ m1 ≤ 1 := by
  simp [LegalModes, h]

/-- The accesses of a three-parameter instruction, whose result f gives (40_engine.md R106). -/
theorem readReadWriteOps_follow {s : State} {i : Instr} {m1 m2 m3 : Nat} (f : Int → Int → Option Int)
    (hl : LegalModes i) (hm : i.modeDigits = [m1, m2, m3])
    (hd : storedAddress s i = (resolveReadReadWrite m1 m2 m3 s).toOption.map (·.2.2))
    (hn : ∀ a b d, resolveReadReadWrite m1 m2 m3 s = .ok (a, b, d) → f a b = none → ∃ r, exec i s = .refused r) :
    ∃ ws, readReadWriteOps m1 m2 m3 s f = resolutionOps s 1 [(.read, m1), (.read, m2), (.write, m3)] ++ ws ∧
      EndsWithItsWrite s i ws := by
  obtain ⟨ws, e, hws⟩ := readReadWriteOps_eq s f ((legalModes_iff_three hm).1 hl)
  refine ⟨ws, e, ?_⟩
  cases hres : resolveReadReadWrite m1 m2 m3 s with
  | error r =>
    rw [hres] at hd hws
    rw [hws]
    exact endsWithItsWrite_nil hd
  | ok x =>
    obtain ⟨a, b, d⟩ := x
    rw [hres] at hd hws
    cases hf : f a b with
    | none =>
      obtain ⟨r, hr⟩ := hn a b d hres hf
      rw [hws, hf]
      exact endsWithItsWrite_refused hr
    | some v =>
      rw [hws, hf]
      exact endsWithItsWrite_singleton hd v

/-- The accesses of a jump (40_engine.md R106). -/
theorem readReadOps_follow {s : State} {i : Instr} {m1 m2 : Nat} (hl : LegalModes i) (hm : i.modeDigits = [m1, m2]) :
    readReadOps m1 m2 s = resolutionOps s 1 [(.read, m1), (.read, m2)] ++ [] := by
  rw [List.append_nil, readReadOps_eq s ((legalModes_iff_two hm).1 hl)]

/-- The accesses of an instruction with legal modes are those of its parameters in order, then its write (40_engine.md
R106). -/
theorem instrOps_follow {s : State} {i : Instr} (hl : LegalModes i) :
    ∃ ws, instrOps s i = resolutionOps s 1 (i.roles.zip i.modeDigits) ++ ws ∧ EndsWithItsWrite s i ws := by
  have refusedIfNone {x d : Int} (h : resultWord s.cfg x = none) :
      ∃ r, storeResult x d s = .refused r := ⟨_, by rw [storeResult, h]⟩
  cases i with
  | add m1 m2 m3 =>
    refine readReadWriteOps_follow _ hl rfl rfl fun a b d hres hf => ?_
    simpa only [exec, execAdd, hres] using refusedIfNone hf
  | multiply m1 m2 m3 =>
    refine readReadWriteOps_follow _ hl rfl rfl fun a b d hres hf => ?_
    simpa only [exec, execMultiply, hres] using refusedIfNone hf
  | lessThan m1 m2 m3 =>
    exact readReadWriteOps_follow _ hl rfl rfl nofun
  | equals m1 m2 m3 =>
    exact readReadWriteOps_follow _ hl rfl rfl nofun
  | jumpIfTrue m1 m2 => exact ⟨[], readReadOps_follow hl rfl, endsWithItsWrite_nil rfl⟩
  | jumpIfFalse m1 m2 => exact ⟨[], readReadOps_follow hl rfl, endsWithItsWrite_nil rfl⟩
  | halt => exact ⟨[], rfl, endsWithItsWrite_nil rfl⟩
  | writeOutput m1 =>
    obtain ⟨k, hk⟩ := modeOf_legal ((legalModes_iff_one rfl).1 hl)
    refine ⟨[], ?_, endsWithItsWrite_nil rfl⟩
    simp [instrOps, hk, readOps_eq_paramOps s 1 hk, resolutionOps, Instr.roles, Instr.modeDigits]
  | readInput m1 =>
    obtain ⟨k, hk⟩ := modeOf_legal ((legalModes_iff_one rfl).1 hl)
    have hstored : storedAddress s (.readInput m1) = (writeAddr s 1 k).toOption := by
      simp [storedAddress, resolveWrite, hk, bind, Except.bind]
    have hres : resolutionOps s 1 [(.write, m1)] = writeOps s 1 k := by
      simp [resolutionOps, writeOps_eq_paramOps s 1 hk]
    cases ha : writeAddr s 1 k with
    | ok d =>
      refine ⟨[.wr d (inPop s).1], ?_, endsWithItsWrite_singleton (by rw [hstored, ha]; rfl) _⟩
      simp only [instrOps, hk, andThen, ha, writeOp, Instr.roles, Instr.modeDigits, List.zip_cons_cons,
        List.zip_nil_right, hres]
    | error r =>
      refine ⟨[], ?_, endsWithItsWrite_nil (by rw [hstored, ha]; rfl)⟩
      simp only [instrOps, hk, andThen, ha, Instr.roles, Instr.modeDigits, List.zip_cons_cons, List.zip_nil_right, hres]

/-- An illegal mode digit stops the step after its fetch (40_engine.md R104). -/
theorem instrOps_of_illegal {s : State} {i : Instr} (hl : ¬ LegalModes i) : instrOps s i = [] := by
  cases i with
  | add m1 m2 m3 => exact readReadWriteOps_illegal s _ (mt (legalModes_iff_three rfl).2 hl)
  | multiply m1 m2 m3 => exact readReadWriteOps_illegal s _ (mt (legalModes_iff_three rfl).2 hl)
  | lessThan m1 m2 m3 => exact readReadWriteOps_illegal s _ (mt (legalModes_iff_three rfl).2 hl)
  | equals m1 m2 m3 => exact readReadWriteOps_illegal s _ (mt (legalModes_iff_three rfl).2 hl)
  | jumpIfTrue m1 m2 => exact readReadOps_illegal s (mt (legalModes_iff_two rfl).2 hl)
  | jumpIfFalse m1 m2 => exact readReadOps_illegal s (mt (legalModes_iff_two rfl).2 hl)
  | halt => rfl
  | writeOutput m1 => simp only [instrOps, modeOf_illegal (mt (legalModes_iff_one rfl).2 hl)]
  | readInput m1 => simp only [instrOps, modeOf_illegal (mt (legalModes_iff_one rfl).2 hl)]

/-- A Running step's trace is its fetch and the accesses of the instruction it decodes (40_engine.md R106). -/
theorem portTrace_of_decode {s : State} {w : Int} {i : Instr} (hs : s.st = .running) (hw : s.mem.read s.ip = some w)
    (hd : decode w = .ok i) : portTrace s = .rd s.ip :: instrOps s i := by
  simp only [portTrace, hs, fetchDecode_ok hw hd]

/-- Settles O58: the trace is the fetch, and the instruction's accesses are those of `instrOps_follow`. -/
theorem portTraceFollowsTheAccessOrder : Obligations.PortTraceFollowsTheAccessOrder := by
  intro s
  refine ⟨fun hs => ?_, fun hs hnot => ?_, fun w i hs hw hd => ?_⟩
  · obtain ⟨-, e⟩ | ⟨hrun, -⟩ | ⟨_, _, hrun, -⟩ := portTrace_cases s
    · exact e
    · exact absurd hrun hs
    · exact absurd hrun hs
  · obtain ⟨hidle, -⟩ | ⟨-, e, -⟩ | ⟨w, i, -, hw, hd, -⟩ := portTrace_cases s
    · exact absurd hs hidle
    · exact e
    · exact absurd hd (hnot w hw i)
  · rw [portTrace_of_decode hs hw hd, step_of_decode hs hw hd]
    refine ⟨fun hl => by rw [instrOps_of_illegal hl], fun hl => ?_⟩
    obtain ⟨ws, e, hnone, hsome⟩ := instrOps_follow hl
    exact ⟨ws, by rw [e], hnone, hsome⟩

end Sys2Proof.Machine
end
